-- ==== Sys2Proof/Word.lean ====
section
/-! DEFINITION. The words of the BHU: values of 8, 64, 256 and 128 bits (`00_scope.md` R7, `30_encoding.md` R60, R61). -/

namespace Sys2Proof

/-- A byte of BUF, an opcode, a cause code (R27, R60, R24). -/
abbrev Byte := BitVec 8

/-- A 64-bit operand field, `BITCOUNT`, `FARG`, the window of a wide access (`XW` and `WORD` of R5). -/
abbrev Word := BitVec 64

/-- One command `CMD` (`CMD_W` of R5, R60). -/
abbrev Command := BitVec 256

/-- One response `RSP` as it leaves the response port (`RSP_W` of R5, R61). -/
abbrev ResponseWord := BitVec 128

end Sys2Proof
end

