-- ==== Sys2Proof/Syntax.lean ====
section
/-! DEFINITION. The ten commands of the BHU (`30_encoding.md` R62), one constructor per row of the opcode table. -/

namespace Sys2Proof

/-- A command with its operands, as decoding leaves them (R70 step 5): an unsigned operand is the value of its field
(R64), SET's value is a bool (R67), ROTATE's amount is `sext_64(C)` (R65). That these are integers and not bit fields
follows R6 and R7 (DESIGN CHOICE, safe, log 13). The operand ranges are `Instr.WellFormed`. -/
inductive Instr where
  /-- `CREATE n`, op 0x01 (R140). -/
  | create (bitCount : Nat)
  /-- `DESTROY`, op 0x02 (R142). -/
  | destroy
  /-- `SIZE`, op 0x03 (R143). -/
  | size
  /-- `GET i`, op 0x04 (R81). -/
  | get (index : Nat)
  /-- `SET i, v`, op 0x05 (R82). -/
  | set (index : Nat) (value : Bool)
  /-- `GET64 i`, op 0x06 (R90). -/
  | get64 (bitIndex : Nat)
  /-- `SET64 i, w`, op 0x07 (R92). -/
  | set64 (bitIndex : Nat) (value : Word)
  /-- `REVERSE s, len`, op 0x08 (R107). -/
  | reverse (start length : Nat)
  /-- `ROTATE off, len, amt`, op 0x09 (R125). -/
  | rotate (offset length : Nat) (rightAmount : Int)
  /-- `STATUS`, op 0x0A (R144). -/
  | status
  deriving DecidableEq, Repr

end Sys2Proof
end

