-- ==== Sys2Proof/WellFormed.lean ====
section
/-! DEFINITION. Which commands have an encoding: the assembler's operand checks (`30_encoding.md` R71). -/

namespace Sys2Proof

/-- An `A` or `B` operand fits its field: `0 .. 2^64-1` (R71, R60, R64). -/
abbrev fitsUnsigned (n : Nat) : Bool := decide (n < 2 ^ 64)

/-- ROTATE's amount fits its field: `-2^63 .. 2^63-1` (R71, R65). -/
abbrev fitsSigned (z : Int) : Bool := decide (-(2 ^ 63) ≤ z) && decide (z < 2 ^ 63)

/-- "An assembler rejects an operand that does not fit its field" (R71). SET's `v` in 0..1 and SET64's 64-bit value fit
by their types. -/
def Instr.wellFormed : Instr → Bool
  | .create n => fitsUnsigned n
  | .destroy => true
  | .size => true
  | .get i => fitsUnsigned i
  | .set i _ => fitsUnsigned i
  | .get64 i => fitsUnsigned i
  | .set64 i _ => fitsUnsigned i
  | .reverse s len => fitsUnsigned s && fitsUnsigned len
  | .rotate off len amt => fitsUnsigned off && fitsUnsigned len && fitsSigned amt
  | .status => true

/-- The proposition behind `Instr.wellFormed`. -/
abbrev Instr.WellFormed (i : Instr) : Prop := i.wellFormed = true

end Sys2Proof
end

