-- ==== Sys2Proof/Decode.lean ====
section
/-! DEFINITION. Decoding a 256-bit command, rejecting by name, and encoding one (`30_encoding.md` R60 to R70). -/

namespace Sys2Proof

/-- Why a `CMD` is illegal (R66), in the order R70 tests. Each raises the same fault, ILLEGAL_CMD (R156). -/
inductive Illegal where
  /-- `rsv = CMD[63:8]` is not 0 (R70 step 1). -/
  | reservedBits
  /-- `op` is 0x00 or in 0x0B..0xFF (R70 step 2). -/
  | unknownOpcode
  /-- An operand field the command does not use is not 0 (R70 step 3). -/
  | unusedOperand
  /-- SET with `B > 1` (R70 step 4, R67). -/
  | setValue
  deriving DecidableEq, Repr

/-- `op = CMD[7:0]` (R60). -/
def commandOp (cmd : Command) : Byte := cmd.extractLsb' 0 8

/-- `rsv = CMD[63:8]` (R60). -/
def commandRsv (cmd : Command) : BitVec 56 := cmd.extractLsb' 8 56

/-- `A = CMD[127:64]` (R60). -/
def commandA (cmd : Command) : Word := cmd.extractLsb' 64 64

/-- `B = CMD[191:128]` (R60). -/
def commandB (cmd : Command) : Word := cmd.extractLsb' 128 64

/-- `C = CMD[255:192]` (R60). -/
def commandC (cmd : Command) : Word := cmd.extractLsb' 192 64

/-- A command from its four 64-bit fields in the written order `C_B_A_header` (R68), the header being `rsv` 0 and `op`. -/
def commandOf (c b a : Word) (op : Byte) : Command := c ++ b ++ a ++ (0#56 ++ op)

/-- R70 steps 2 to 5, once `rsv` is known to be 0: look `op` up in R62, then test the fields marked 0, then SET's `B`. -/
def decodeFields (op : Byte) (a b c : Word) : Except Illegal Instr :=
  match op.toNat with
  | 0x01 => if b = 0 ∧ c = 0 then .ok (.create a.toNat) else .error .unusedOperand
  | 0x02 => if a = 0 ∧ b = 0 ∧ c = 0 then .ok .destroy else .error .unusedOperand
  | 0x03 => if a = 0 ∧ b = 0 ∧ c = 0 then .ok .size else .error .unusedOperand
  | 0x04 => if b = 0 ∧ c = 0 then .ok (.get a.toNat) else .error .unusedOperand
  | 0x05 =>
    if c = 0 then
      if b.toNat ≤ 1 then .ok (.set a.toNat (b.getLsbD 0)) else .error .setValue
    else .error .unusedOperand
  | 0x06 => if b = 0 ∧ c = 0 then .ok (.get64 a.toNat) else .error .unusedOperand
  | 0x07 => if c = 0 then .ok (.set64 a.toNat b) else .error .unusedOperand
  | 0x08 => if c = 0 then .ok (.reverse a.toNat b.toNat) else .error .unusedOperand
  | 0x09 => .ok (.rotate a.toNat b.toNat c.toInt)
  | 0x0A => if a = 0 ∧ b = 0 ∧ c = 0 then .ok .status else .error .unusedOperand
  | _ => .error .unknownOpcode

/-- "Decode procedure, total on every 256-bit value" (R70). -/
def decode (cmd : Command) : Except Illegal Instr :=
  if commandRsv cmd = 0 then
    decodeFields (commandOp cmd) (commandA cmd) (commandB cmd) (commandC cmd)
  else .error .reservedBits

/-- A row of R63's table: the bits of `CMD` with a fixed value (`mask`) and their values (`bits`). -/
structure Pattern where
  mnemonic : String
  mask : Command
  bits : Command
  deriving DecidableEq, Repr

/-- "a `CMD` encodes the command if and only if `CMD & mask == match`" (R63). -/
def Pattern.covers (p : Pattern) (cmd : Command) : Bool := decide (cmd &&& p.mask = p.bits)

/-- The exact patterns of R63, row by row. The decoder above follows the procedure of R70 and does not read them. -/
def patterns : List Pattern := [
  ⟨"CREATE",
    0xFFFFFFFFFFFFFFFFFFFFFFFFFFFFFFFF0000000000000000FFFFFFFFFFFFFFFF,
    0x0000000000000000000000000000000000000000000000000000000000000001⟩,
  ⟨"DESTROY",
    0xFFFFFFFFFFFFFFFFFFFFFFFFFFFFFFFFFFFFFFFFFFFFFFFFFFFFFFFFFFFFFFFF,
    0x0000000000000000000000000000000000000000000000000000000000000002⟩,
  ⟨"SIZE",
    0xFFFFFFFFFFFFFFFFFFFFFFFFFFFFFFFFFFFFFFFFFFFFFFFFFFFFFFFFFFFFFFFF,
    0x0000000000000000000000000000000000000000000000000000000000000003⟩,
  ⟨"GET",
    0xFFFFFFFFFFFFFFFFFFFFFFFFFFFFFFFF0000000000000000FFFFFFFFFFFFFFFF,
    0x0000000000000000000000000000000000000000000000000000000000000004⟩,
  ⟨"SET",
    0xFFFFFFFFFFFFFFFFFFFFFFFFFFFFFFFE0000000000000000FFFFFFFFFFFFFFFF,
    0x0000000000000000000000000000000000000000000000000000000000000005⟩,
  ⟨"GET64",
    0xFFFFFFFFFFFFFFFFFFFFFFFFFFFFFFFF0000000000000000FFFFFFFFFFFFFFFF,
    0x0000000000000000000000000000000000000000000000000000000000000006⟩,
  ⟨"SET64",
    0xFFFFFFFFFFFFFFFF00000000000000000000000000000000FFFFFFFFFFFFFFFF,
    0x0000000000000000000000000000000000000000000000000000000000000007⟩,
  ⟨"REVERSE",
    0xFFFFFFFFFFFFFFFF00000000000000000000000000000000FFFFFFFFFFFFFFFF,
    0x0000000000000000000000000000000000000000000000000000000000000008⟩,
  ⟨"ROTATE",
    0x000000000000000000000000000000000000000000000000FFFFFFFFFFFFFFFF,
    0x0000000000000000000000000000000000000000000000000000000000000009⟩,
  ⟨"STATUS",
    0xFFFFFFFFFFFFFFFFFFFFFFFFFFFFFFFFFFFFFFFFFFFFFFFFFFFFFFFFFFFFFFFF,
    0x000000000000000000000000000000000000000000000000000000000000000A⟩]

/-- The opcode of a command (R62). -/
def opcodeOf : Instr → Byte
  | .create _ => 0x01
  | .destroy => 0x02
  | .size => 0x03
  | .get _ => 0x04
  | .set _ _ => 0x05
  | .get64 _ => 0x06
  | .set64 _ _ => 0x07
  | .reverse _ _ => 0x08
  | .rotate _ _ _ => 0x09
  | .status => 0x0A

/-- Field `A` of a command; 0 where the command does not use it (R62). -/
def fieldA : Instr → Word
  | .create n => BitVec.ofNat 64 n
  | .destroy => 0
  | .size => 0
  | .get i => BitVec.ofNat 64 i
  | .set i _ => BitVec.ofNat 64 i
  | .get64 i => BitVec.ofNat 64 i
  | .set64 i _ => BitVec.ofNat 64 i
  | .reverse s _ => BitVec.ofNat 64 s
  | .rotate off _ _ => BitVec.ofNat 64 off
  | .status => 0

/-- Field `B` of a command; 0 where the command does not use it (R62, R67). -/
def fieldB : Instr → Word
  | .create _ => 0
  | .destroy => 0
  | .size => 0
  | .get _ => 0
  | .set _ v => if v then 1 else 0
  | .get64 _ => 0
  | .set64 _ w => w
  | .reverse _ len => BitVec.ofNat 64 len
  | .rotate _ len _ => BitVec.ofNat 64 len
  | .status => 0

/-- Field `C` of a command: ROTATE's amount in two's complement, 0 in every other command (R62, R65). -/
def fieldC : Instr → Word
  | .create _ => 0
  | .destroy => 0
  | .size => 0
  | .get _ => 0
  | .set _ _ => 0
  | .get64 _ => 0
  | .set64 _ _ => 0
  | .reverse _ _ => 0
  | .rotate _ _ amt => BitVec.ofInt 64 amt
  | .status => 0

/-- The one encoding of a command (R60, R62, R66). -/
def encode (i : Instr) : Command := commandOf (fieldC i) (fieldB i) (fieldA i) (opcodeOf i)

/-- The 256-bit `CMD` whose bit `k` is bit `k` of the table's number `w` for `k < nbits`, and 0 above (R63, last
paragraph: "the 256-bit number whose bit `i` is `CMD[i]`"; log 16). -/
def tableCommand (nbits w : Nat) : Command := BitVec.ofNat 256 (w % 2 ^ nbits)

/-- The instruction the decoder reads from a table word, `none` where it refuses. -/
def decodeTableWord (nbits w : Nat) : Option Instr :=
  match decode (tableCommand nbits w) with
  | .ok i => some i
  | .error _ => none

/-- The mnemonic of a command (R62, R71), as the opcode table spells it. -/
def mnemonicOf : Instr → String
  | .create _ => "CREATE"
  | .destroy => "DESTROY"
  | .size => "SIZE"
  | .get _ => "GET"
  | .set _ _ => "SET"
  | .get64 _ => "GET64"
  | .set64 _ _ => "SET64"
  | .reverse _ _ => "REVERSE"
  | .rotate _ _ _ => "ROTATE"
  | .status => "STATUS"

end Sys2Proof
end

