-- ==== Sys2Proof/Config.lean ====
section
/-! DEFINITION. The parameters of the BHU (`00_scope.md` R5). -/

namespace Sys2Proof.Config

/-- `WORD`: bits moved by one wide access, width of `brev64` (R5). -/
abbrev wordBits : Nat := 64

/-- `SPAN`: bytes in the footprint of one wide access (R5). -/
abbrev spanBytes : Nat := 9

/-- `BULK_MIN`: least remaining span for which the bulk phase runs one more iteration (R5). -/
abbrev bulkMin : Nat := 128

/-- `GUARD`: bytes of BUF kept beyond the nominal buffer (R5, R28). -/
abbrev guardBytes : Nat := 1

/-- The largest `BUF_BYTES` of the open parameter's range `1 <= BUF_BYTES <= 2^61` (R5, D4). -/
abbrev maxBufBytes : Nat := 2 ^ 61

/-- The value `Machine.State.reset` gives the open parameter `BUF_BYTES` (R5, D4, U15).
DESIGN CHOICE, unsafe for a claim about `State.reset` alone (log 1): the spec leaves `BUF_BYTES` open, and 64 is the
value its own vectors and programs run with (`95_test_vectors.md`). `BUF_BYTES` itself is `Memory.size` of the state, so
a claim about every state is a claim about every `BUF_BYTES`. -/
def resetBufBytes : Nat := 64

end Sys2Proof.Config
end

