-- ==== Sys2Proof/Machine/State.lean ====
section
/-! DEFINITION. The state of the BHU (`10_state.md`), the reasons a step can stop, and the state after reset. -/

namespace Sys2Proof.Machine

/-- `STATE` (R21). Its 2-bit codes are `unitStateCode`; the code 3 "is never produced by any rule" (U18, log 14). -/
inductive UnitState where
  /-- 0, EMPTY: the unit holds no array. -/
  | empty
  /-- 1, READY: the unit holds an array of `BITCOUNT` bits. -/
  | ready
  /-- 2, FAULTED: a command violated a precondition; only reset leaves (R159, R161). -/
  | faulted
  deriving DecidableEq, Repr

/-- `CAUSE` (R24), the cause codes of R156. Their 8-bit codes are `causeCode`; 7..255 never occur (U18, log 14). -/
inductive Cause where
  /-- 0, NONE: no fault has occurred. -/
  | none
  /-- 1, ILLEGAL_CMD: `CMD` matches no pattern of R63. -/
  | illegalCmd
  /-- 2, NO_ARRAY: an array command in state EMPTY. -/
  | noArray
  /-- 3, INDEX_RANGE: GET, SET with `A >= BITCOUNT`. -/
  | indexRange
  /-- 4, WIDE_BOUND: GET64, SET64 out of bound. -/
  | wideBound
  /-- 5, RANGE_BOUND: REVERSE, ROTATE with `B > 0` and `A + B > BITCOUNT`. -/
  | rangeBound
  /-- 6, ZERO_DIVISOR: a `mod` with divisor 0; reserved and unreachable (R165). -/
  | zeroDivisor
  deriving DecidableEq, Repr

/-- `RSP.status` (R69). Its codes are `statusCode`. -/
inductive Status where
  /-- 0, OK: the command was executed as its rule says. -/
  | ok
  /-- 1, NOHANDLE: CREATE produced no array; nothing changed. -/
  | noHandle
  /-- 2, FAULT: this command raised a fault. -/
  | fault
  /-- 3, FAULTED: the unit was already FAULTED; the command was ignored. -/
  | faulted
  deriving DecidableEq, Repr

/-- One response (R61), field by field; `responseWord` is the 128-bit `RSP` it leaves the unit as. -/
structure Response where
  /-- `RSP[7:0]`. -/
  status : Status
  /-- `RSP[15:8]`, `CAUSE` after the command. -/
  cause : Cause
  /-- `RSP[23:16]`, `FOP` after the command. -/
  fop : Byte
  /-- `RSP[25:24]`, `STATE` after the command. -/
  unit : UnitState
  /-- `RSP[127:64]`. -/
  value : Word
  deriving DecidableEq, Repr

/-- What the host does at the unit's two inputs (R168): it presents a command, or it asserts reset. -/
inductive HostEvent where
  /-- A `CMD` is presented and executed to its response. -/
  | command (cmd : Command)
  /-- The reset event (R180). -/
  | reset
  /-- A `CMD` is presented and reset arrives while it executes: it gives no response (R181, R168; log 7). -/
  | cutCommand (cmd : Command)
  deriving DecidableEq, Repr

/-- `BUF` (R27): an array of `size = BUF_BYTES` bytes, of which `cells` lists those that have a value, at strictly rising
addresses below `size` (`Memory.wf`). A byte that is not listed has no value (R30, U11, log 2). The size is the open
parameter of R5, held here so that a claim about every state is a claim about every `BUF_BYTES` (log 1); no command and
no reset changes it. -/
structure Memory where
  size : Nat
  cells : List Host.Cell
  deriving DecidableEq, Repr

/-- The architectural state `(STATE, BITCOUNT, CAUSE, FOP, FARG, BUF)` of R20, and the model's own view of the two ports:
what the host still presents (`events`, log 5) and the responses the unit has emitted (`responses`, oldest first, log 6). -/
structure State where
  /-- `STATE` (R21). -/
  unit : UnitState
  /-- `BITCOUNT` (R22). -/
  bitCount : Word
  /-- `CAUSE` (R24). -/
  cause : Cause
  /-- `FOP` (R25). -/
  fop : Byte
  /-- `FARG` (R26). -/
  farg : Word
  /-- `BUF` (R27). -/
  buf : Memory
  /-- The model's own: what the host presents next, in order (R51, R168, R188). -/
  events : List HostEvent
  /-- The model's own: the responses so far, in the order of the commands (R51, R61, R188). -/
  responses : List Response
  deriving DecidableEq, Repr

/-- The reasons the model stops with a fault. The spec's own faults are not here: they are next states (R158). -/
inductive Fault where
  /-- Raised by a read or write of a byte of BUF at an address that does not exist, `BUF_BYTES` or more (R40, R47).
  Safe: R47 shows that no command makes such an access in a state reachable from reset (log 4). -/
  | noSuchByte
  /-- Raised by a read of a byte of BUF that holds no value (R30). Safe: in state READY every byte `0 .. NB` holds a
  value (R36 (f)) and no command reads another (R47), so no state reachable from reset raises it (log 2, log 4). -/
  | byteWithoutValue
  deriving DecidableEq, Repr

/-- The reasons the model refuses. -/
inductive Refusal where
  /-- Raised by an arm of `exec` whose instruction has no meaning yet. Safe. No arm answers with it now. -/
  | notModelled (mnemonic : String)
  deriving DecidableEq, Repr

/-- What one command answers. -/
abbrev Result := Host.Outcome State Fault Refusal

/-- The unit of `bufBytes` bytes right after reset (R37, R180), with nothing presented to it and nothing answered. -/
def State.resetWith (bufBytes : Nat) : State where
  unit := .empty
  bitCount := 0
  cause := .none
  fop := 0
  farg := 0
  buf := { size := bufBytes, cells := [] }
  events := []
  responses := []

/-- The machine right after reset (R37), of the size `Config.resetBufBytes` (log 1). -/
def State.reset : State := State.resetWith Config.resetBufBytes

end Sys2Proof.Machine
end

