-- ==== Sys2Proof/Machine/Flags.lean ====
section
/-! DEFINITION. The codes a response carries. The BHU has no flags or condition codes (`10_state.md` R33); its only status
is what `RSP` reports (`30_encoding.md` R61, R69, `60_exceptions.md` R156). -/

namespace Sys2Proof.Machine

/-- The code of `STATE` (R21). -/
def unitStateCode : UnitState → BitVec 2
  | .empty => 0
  | .ready => 1
  | .faulted => 2

/-- The cause codes (R156). -/
def causeCode : Cause → Byte
  | .none => 0
  | .illegalCmd => 1
  | .noArray => 2
  | .indexRange => 3
  | .wideBound => 4
  | .rangeBound => 5
  | .zeroDivisor => 6

/-- The codes of `RSP.status` (R69). -/
def statusCode : Status → Byte
  | .ok => 0
  | .noHandle => 1
  | .fault => 2
  | .faulted => 3

/-- The 128-bit `RSP` (R61): `value`, 38 zero bits, `state`, `fop`, `cause`, `status`, most significant first. -/
def responseWord (r : Response) : ResponseWord :=
  r.value ++ (0#38 ++ (unitStateCode r.unit ++ (r.fop ++ (causeCode r.cause ++ statusCode r.status))))

/-- A bool as a 64-bit value: "the bit read, in bit 0, bits 63:1 zero" (R61, R67). -/
def boolWord (b : Bool) : Word := if b then 1 else 0

end Sys2Proof.Machine
end

