-- ==== Sys2Proof/Machine/Operands.lean ====
section
/-! DEFINITION. What the commands compute from their operands and from `BITCOUNT`, on unbounded integers (`00_scope.md`
R6): sizes, byte and bit positions, the bounds of the preconditions, the rotation amount. -/

namespace Sys2Proof.Machine

/-- `ceil(n / 8)`, the bytes of a nominal buffer of `n` bits (R6, R23). -/
def byteCount (n : Nat) : Nat := (n + 7) / 8

/-- `NB` (R23). -/
def State.nb (s : State) : Nat := byteCount s.bitCount.toNat

/-- `MAX_BITS` of a buffer of `BUF_BYTES` bytes (R5). -/
def maxBits (bufBytes : Nat) : Nat := 8 * (bufBytes - Config.guardBytes)

/-- The byte that holds bit index `i`, `b = i div 8` (R41). -/
def byteIndex (i : Nat) : Nat := i / 8

/-- The position of bit index `i` in its byte, `o = i mod 8` (R41). -/
def bitOffset (i : Nat) : Nat := i % 8

/-- The test of CREATE: the array with its guard byte does not fit (R140, R141 (b)). -/
def doesNotFit (bufBytes n : Nat) : Bool := decide (bufBytes < byteCount n + Config.guardBytes)

/-- GET's and SET's precondition `A < BITCOUNT` (R81, R82). -/
def State.indexInRange (s : State) (i : Nat) : Bool := decide (i < s.bitCount.toNat)

/-- A wide access at bit index `i` is in bound (R94). -/
def State.wideInBound (s : State) (i : Nat) : Bool := decide (byteIndex i + 8 ≤ s.nb)

/-- REVERSE's and ROTATE's test `A + B <= BITCOUNT`, an integer sum that does not wrap (R107, R125). -/
def State.rangeInBound (s : State) (start length : Nat) : Bool := decide (start + length ≤ s.bitCount.toNat)

/-- `r mod B` with the floor `mod` of R6 (R127), and the divisor check of R156 row 6: `none` for a zero divisor. ROTATE
never asks it with one (R165). -/
def floorMod (r : Int) (b : Nat) : Option Nat :=
  if b = 0 then none else some (r % (b : Int)).toNat

end Sys2Proof.Machine
end

