-- ==== Sys2Proof/Machine/Ops.lean ====
section
/-! DEFINITION. The operations every command is built from: reads and writes of BUF (`00_scope.md` R9), responses
(R10, `30_encoding.md` R61), fault entry (`60_exceptions.md` R158), the common checks (R160) and reset
(`70_reset_and_hazards.md` R180). -/

namespace Sys2Proof.Machine

/-! ### The bytes of BUF -/

/-- What a byte of BUF that is not listed reads as: it has no value (R30, log 2). -/
def unlistedByte : Option Byte := none

/-- The value listed for address `a`. -/
def lookupCell (a : Nat) : List Host.Cell → Option Byte
  | [] => unlistedByte
  | (k, v) :: rest => if k = a then some v else lookupCell a rest

/-- `v` listed at address `a`, in its place among the rising addresses. -/
def insertCell (a : Nat) (v : Byte) : List Host.Cell → List Host.Cell
  | [] => [(a, v)]
  | (k, w) :: rest =>
    if a < k then (a, v) :: (k, w) :: rest
    else if k = a then (a, v) :: rest
    else (k, w) :: insertCell a v rest

/-- The addresses listed are strictly rising, from `lo` up and below `hi`. -/
def risingWithin (hi : Nat) : Nat → List Host.Cell → Bool
  | _, [] => true
  | lo, (a, _) :: rest => decide (lo ≤ a) && decide (a < hi) && risingWithin hi (a + 1) rest

/-- The canonical form of BUF: strictly rising addresses that exist. That no entry equals what an unlisted address reads
as needs no test, since an entry has a value and an unlisted byte has none. -/
def Memory.wf (m : Memory) : Bool := risingWithin m.size 0 m.cells

/-- `BUF[a]` read (R9, R40). -/
def Memory.readByte (m : Memory) (a : Nat) : Except Fault Byte :=
  if a < m.size then
    match lookupCell a m.cells with
    | some v => .ok v
    | none => .error .byteWithoutValue
  else .error .noSuchByte

/-- `BUF[a] <- v` (R9, R40). -/
def Memory.writeByte (m : Memory) (a : Nat) (v : Byte) : Except Fault Memory :=
  if a < m.size then .ok { m with cells := insertCell a v m.cells } else .error .noSuchByte

/-- `MemRead(addr, n)`: the little-endian value of `n` bytes, `addr` the least significant (R9, R43). -/
def Memory.memRead (m : Memory) (addr : Nat) : Nat → Except Fault Nat
  | 0 => .ok 0
  | n + 1 => do
    let low ← m.readByte addr
    let high ← m.memRead (addr + 1) n
    .ok (low.toNat + 2 ^ 8 * high)

/-- `MemWrite(addr, n, v)`: `BUF[addr + j] <- v[8j+7:8j]` for `j` in `0..n-1` (R9, R43). -/
def Memory.memWrite (m : Memory) (addr : Nat) : Nat → Nat → Except Fault Memory
  | 0, _ => .ok m
  | n + 1, v => do
    let m' ← m.writeByte addr (BitVec.ofNat 8 v)
    m'.memWrite (addr + 1) n (v / 2 ^ 8)

/-- `bit(i) = BUF[i div 8][i mod 8]` (R9, R41, R42). -/
def Memory.bit (m : Memory) (i : Nat) : Except Fault Bool := do
  let v ← m.readByte (byteIndex i)
  .ok (v.getLsbD (bitOffset i))

/-- The byte `x` with bit `o` set to `v`: `(x & ~(1 << o)) | (v << o)` (R9). -/
def putBit (x : Byte) (o : Nat) (v : Bool) : Byte :=
  (x &&& ~~~(1#8 <<< o)) ||| ((if v then 1#8 else 0#8) <<< o)

/-- `setbit(i, v)`, a read and a write of the one byte that holds bit `i` (R9, R80). -/
def Memory.setbit (m : Memory) (i : Nat) (v : Bool) : Except Fault Memory := do
  let x ← m.readByte (byteIndex i)
  m.writeByte (byteIndex i) (putBit x (bitOffset i) v)

/-- `for j in 0 .. n-1: BUF[j] <- 0x00` (R140). -/
def Memory.zeroFill (m : Memory) : Nat → Except Fault Memory
  | 0 => .ok m
  | n + 1 => do
    let m' ← m.zeroFill n
    m'.writeByte n 0

/-- BUF with every byte unspecified: what reset and DESTROY leave (R30, R142, R180, log 2). -/
def Memory.forget (m : Memory) : Memory := { m with cells := [] }

/-! ### Responses and fault entry -/

/-- `Respond(status, value)`: the response is built from the state after the command (R10, R61). -/
def respond (status : Status) (value : Word) (s : State) : State :=
  { s with responses := s.responses ++
      [{ status := status, cause := s.cause, fop := s.fop, unit := s.unit, value := value }] }

/-- `raise Fault(cause)` for the command `cmd`: taking the BHU's one kind of exception (R158). -/
def raiseFault (cause : Cause) (cmd : Command) (s : State) : State :=
  respond .fault (commandA cmd)
    { s with cause := cause, fop := commandOp cmd, farg := commandA cmd, unit := .faulted }

/-- What every command presented in state FAULTED is answered with (R159). -/
def respondFaulted (s : State) : State := respond .faulted s.farg s

/-! ### The common checks (R160) -/

/-- The outcome of a command's own rule. -/
def finish : Except Fault State → Result
  | .ok s => .next s
  | .error f => .fault f

/-- R160 step 1 for the command of `i`, then its own rule: CREATE, DESTROY, STATUS. The unit does not decode in FAULTED;
`exec` of a command there answers as R159 says (log 12). -/
def whenNotFaulted (s : State) (rule : Except Fault State) : Result :=
  match s.unit with
  | .faulted => .next (respondFaulted s)
  | .empty => finish rule
  | .ready => finish rule

/-- R160 steps 1 and 3 for the command `i`, then its own rule: the commands that need an array. FOP and FARG come from
`CMD`, which for a decoded command is `encode i` (R66, log 9). -/
def whenReady (i : Instr) (s : State) (rule : Except Fault State) : Result :=
  match s.unit with
  | .faulted => .next (respondFaulted s)
  | .empty => .next (raiseFault .noArray (encode i) s)
  | .ready => finish rule

/-! ### Reset -/

/-- The reset event (R180): the registers as R37, every byte of BUF unspecified, no response. -/
def resetUnit (s : State) : State :=
  { s with unit := .empty, bitCount := 0, cause := .none, fop := 0, farg := 0, buf := s.buf.forget }

end Sys2Proof.Machine
end

