-- ==== Sys2Proof/Machine/BitAccessor.lean ====
section
/-! DEFINITION. The bit accessor: GET and SET (`41_bit_accessor.md`). -/

namespace Sys2Proof.Machine

/-- GET (R81). -/
def execGet (index : Nat) (s : State) : Result :=
  whenReady (.get index) s <|
    if s.indexInRange index then do
      let v ← s.buf.bit index
      .ok (respond .ok (boolWord v) s)
    else .ok (raiseFault .indexRange (encode (.get index)) s)

/-- SET (R82). -/
def execSet (index : Nat) (value : Bool) (s : State) : Result :=
  whenReady (.set index value) s <|
    if s.indexInRange index then do
      let m ← s.buf.setbit index value
      .ok (respond .ok 0 { s with buf := m })
    else .ok (raiseFault .indexRange (encode (.set index value)) s)

end Sys2Proof.Machine
end

