-- ==== Sys2Proof/Machine/LifeCycle.lean ====
section
/-! DEFINITION. Life cycle and status: CREATE, DESTROY, SIZE, STATUS (`45_lifecycle.md`). -/

namespace Sys2Proof.Machine

/-- CREATE (R140, R141). -/
def execCreate (bitCount : Nat) (s : State) : Result :=
  whenNotFaulted s <|
    if s.unit = .ready then .ok (respond .noHandle 0 s)
    else if doesNotFit s.buf.size bitCount then .ok (respond .noHandle 0 s)
    else do
      let m ← s.buf.zeroFill (byteCount bitCount + Config.guardBytes)
      .ok (respond .ok 0 { s with bitCount := BitVec.ofNat 64 bitCount, buf := m, unit := .ready })

/-- DESTROY (R142). BUF "counts as unspecified from then on" (log 2). -/
def execDestroy (s : State) : Result :=
  whenNotFaulted s <|
    .ok (respond .ok 0 { s with bitCount := 0, unit := .empty, buf := s.buf.forget })

/-- SIZE (R143). -/
def execSize (s : State) : Result :=
  whenReady .size s <| .ok (respond .ok s.bitCount s)

/-- STATUS (R144). -/
def execStatus (s : State) : Result :=
  whenNotFaulted s <| .ok (respond .ok s.farg s)

end Sys2Proof.Machine
end

