-- ==== Sys2Proof/Machine/WideAccessor.lean ====
section
/-! DEFINITION. The wide accessor: GET64 and SET64 (`42_wide_accessor.md`). -/

namespace Sys2Proof.Machine

/-- The window at bit offset `o` of the 9-byte span `hi : lo`; shifts by the width give 0 (R91, R95, R7, C4). -/
def windowOf (lo : Word) (hi : Byte) (o : Nat) : Word :=
  if o = 0 then lo else (lo >>> o) ||| (hi.zeroExtend 64 <<< (64 - o))

/-- The new low eight bytes of the span when `v` is merged in at bit offset `o` (R93). -/
def mergeLow (lo v : Word) (o : Nat) : Word :=
  if o = 0 then v else (lo &&& ((1#64 <<< o) - 1#64)) ||| (v <<< o)

/-- The new ninth byte of the span when `v` is merged in at bit offset `o` (R93). -/
def mergeHigh (hi : Byte) (v : Word) (o : Nat) : Byte :=
  if o = 0 then hi else (hi &&& (0xFF#8 <<< o)) ||| (v >>> (64 - o)).truncate 8

/-- `get64(i)`: reads nine bytes, writes nothing (R91, C1). -/
def Memory.get64 (m : Memory) (i : Nat) : Except Fault Word := do
  let lo ← m.memRead (byteIndex i) 8
  let hi ← m.readByte (byteIndex i + 8)
  .ok (windowOf (BitVec.ofNat 64 lo) hi (bitOffset i))

/-- `set64(i, v)`: reads nine bytes, merges `v` into them and writes the nine back (R93, C1). -/
def Memory.set64 (m : Memory) (i : Nat) (v : Word) : Except Fault Memory := do
  let lo ← m.memRead (byteIndex i) 8
  let hi ← m.readByte (byteIndex i + 8)
  let m' ← m.memWrite (byteIndex i) 8 (mergeLow (BitVec.ofNat 64 lo) v (bitOffset i)).toNat
  m'.writeByte (byteIndex i + 8) (mergeHigh hi v (bitOffset i))

/-- GET64 (R90). -/
def execGet64 (bitIndex : Nat) (s : State) : Result :=
  whenReady (.get64 bitIndex) s <|
    if s.wideInBound bitIndex then do
      let w ← s.buf.get64 bitIndex
      .ok (respond .ok w s)
    else .ok (raiseFault .wideBound (encode (.get64 bitIndex)) s)

/-- SET64 (R92). -/
def execSet64 (bitIndex : Nat) (value : Word) (s : State) : Result :=
  whenReady (.set64 bitIndex value) s <|
    if s.wideInBound bitIndex then do
      let m ← s.buf.set64 bitIndex value
      .ok (respond .ok 0 { s with buf := m })
    else .ok (raiseFault .wideBound (encode (.set64 bitIndex value)) s)

end Sys2Proof.Machine
end

