-- ==== Sys2Proof/Machine/RangeReversal.lean ====
section
/-! DEFINITION. Range reversal: `brev64` and REVERSE (`43_range_reversal.md`). -/

namespace Sys2Proof.Machine

/-- `brev64(w)[k] == w[63 - k]` (R105). How it is built is free (R106, log 10). -/
def brev64 (w : Word) : Word := w.reverse

/-- `iterations` rounds of the bulk phase on `[left, right)`: both reads, then the write to the right window, then the
write to the left one, each on the memory the earlier ones left (R108, R56, R184). -/
def Memory.bulkReverse : (iterations left right : Nat) → Memory → Except Fault Memory
  | 0, _, _, m => .ok m
  | k + 1, left, right, m => do
    let l ← m.get64 left
    let r ← m.get64 (right - Config.wordBits)
    let m₁ ← m.set64 (right - Config.wordBits) (brev64 l)
    let m₂ ← m₁.set64 left (brev64 r)
    Memory.bulkReverse k (left + Config.wordBits) (right - Config.wordBits) m₂

/-- `swaps` swaps of the tail phase, from the two edges of `[left, right)` inwards (R109). -/
def Memory.tailReverse : (swaps left right : Nat) → Memory → Except Fault Memory
  | 0, _, _, m => .ok m
  | k + 1, left, right, m => do
    let a ← m.bit left
    let c ← m.bit (right - 1)
    let m₁ ← m.setbit left c
    let m₂ ← m₁.setbit (right - 1) a
    Memory.tailReverse k (left + 1) (right - 1) m₂

/-- `reverse(start, length)`: `length div 128` bulk iterations, then `(length mod 128) div 2` swaps between the edges the
bulk phase left (R108, R109, R185, C5). -/
def Memory.reverse (m : Memory) (start length : Nat) : Except Fault Memory := do
  let rounds := length / Config.bulkMin
  let m' ← Memory.bulkReverse rounds start (start + length) m
  Memory.tailReverse (length % Config.bulkMin / 2)
    (start + Config.wordBits * rounds) (start + length - Config.wordBits * rounds) m'

/-- REVERSE (R107). -/
def execReverse (start length : Nat) (s : State) : Result :=
  whenReady (.reverse start length) s <|
    if length = 0 then .ok (respond .ok 0 s)
    else if s.rangeInBound start length then do
      let m ← s.buf.reverse start length
      .ok (respond .ok 0 { s with buf := m })
    else .ok (raiseFault .rangeBound (encode (.reverse start length)) s)

end Sys2Proof.Machine
end

