-- ==== Sys2Proof/Machine/Rotation.lean ====
section
/-! DEFINITION. Rotation: ROTATE (`44_rotation.md`). -/

namespace Sys2Proof.Machine

/-- The three reversals that rotate `[offset, offset + length)` right by `n`, `0 < n < length` (R129). -/
def Memory.threeReversals (m : Memory) (offset length n : Nat) : Except Fault Memory := do
  let m₁ ← m.reverse offset (length - n)
  let m₂ ← m₁.reverse (offset + (length - n)) n
  m₂.reverse offset length

/-- ROTATE (R125): the empty range first (R126), then the range check, then the normalised amount (R127, C3), then the
no-op of amount 0 (R128) or the three reversals (R129). The arm for a zero divisor is the one R165 shows unreachable. -/
def execRotate (offset length : Nat) (rightAmount : Int) (s : State) : Result :=
  whenReady (.rotate offset length rightAmount) s <|
    if length = 0 then .ok (respond .ok 0 s)
    else if s.rangeInBound offset length then
      match floorMod rightAmount length with
      | none => .ok (raiseFault .zeroDivisor (encode (.rotate offset length rightAmount)) s)
      | some n =>
        if n = 0 then .ok (respond .ok 0 s)
        else do
          let m ← s.buf.threeReversals offset length n
          .ok (respond .ok 0 { s with buf := m })
    else .ok (raiseFault .rangeBound (encode (.rotate offset length rightAmount)) s)

end Sys2Proof.Machine
end

