-- ==== Sys2Proof/Machine/Dispatch.lean ====
section
/-! DEFINITION. The meaning of each command (`60_exceptions.md` R160 steps 1, 3 and 4), one arm per constructor. -/

namespace Sys2Proof.Machine

def exec (i : Instr) (s : State) : Host.Outcome State Fault Refusal :=
  match i with
  | .create bitCount => Sys2Proof.Machine.execCreate bitCount s
  | .destroy => Sys2Proof.Machine.execDestroy s
  | .size => Sys2Proof.Machine.execSize s
  | .get index => Sys2Proof.Machine.execGet index s
  | .set index value => Sys2Proof.Machine.execSet index value s
  | .get64 bitIndex => Sys2Proof.Machine.execGet64 bitIndex s
  | .set64 bitIndex value => Sys2Proof.Machine.execSet64 bitIndex value s
  | .reverse start length => Sys2Proof.Machine.execReverse start length s
  | .rotate offset length rightAmount => Sys2Proof.Machine.execRotate offset length rightAmount s
  | .status => Sys2Proof.Machine.execStatus s

end Sys2Proof.Machine
end

