-- ==== Sys2Proof/Machine/Command.lean ====
section
/-! DEFINITION. The step of the BHU on what the host presents (`60_exceptions.md` R160, `20_memory.md` R51). -/

namespace Sys2Proof.Machine

/-- `step(CMD)` (R160): in FAULTED nothing is decoded (R159); an illegal `CMD` raises ILLEGAL_CMD (R66); any other is
executed. -/
def runCommand (cmd : Command) (s : State) : Result :=
  match s.unit with
  | .faulted => .next (respondFaulted s)
  | _ =>
    match decode cmd with
    | .ok i => exec i s
    | .error _ => .next (raiseFault .illegalCmd cmd s)

/-- The unit takes what the host presents next. With nothing presented it is idle and keeps all its state (R167, log 8). A
command that reset cuts short leaves what reset leaves, and no response (R181, log 7). -/
def takeEvent (s : State) : Result :=
  match s.events with
  | [] => .next s
  | .command cmd :: rest => runCommand cmd { s with events := rest }
  | .reset :: rest => .next (resetUnit { s with events := rest })
  | .cutCommand _ :: rest => .next (resetUnit { s with events := rest })

/-- `cmd` presented next, before whatever the host presents after it. -/
def presentCommand (cmd : Command) (s : State) : State := { s with events := .command cmd :: s.events }

end Sys2Proof.Machine
end

