-- ==== Sys2Proof/Machine/Step.lean ====
section
/-! DEFINITION. One step: one thing the host presents, whole (`20_memory.md` R51). -/

namespace Sys2Proof.Machine

/-- One step of the machine. -/
def step (s : State) : Host.Outcome State Fault Refusal := takeEvent s

/-- The state in which the host presents the table word `w` next (R168, log 5, log 16). -/
def State.withFetchWord (s : State) (nbits w : Nat) : State := presentCommand (tableCommand nbits w) s

end Sys2Proof.Machine
end

