-- ==== Sys2Proof/Safety.lean ====
section
/-! DEFINITION. The words claims about the BHU are stated in: its invariants (`10_state.md` R36), the view of BUF by bits
(`20_memory.md` R42), and what a good run is (`70_reset_and_hazards.md` R188). -/

namespace Sys2Proof.Machine

/-- Every byte of BUF at an address below `n` holds a value (R36 (f) with `n = NB + 1`). -/
abbrev Memory.HoldsBelow (m : Memory) (n : Nat) : Prop := ∀ a, a < n → (lookupCell a m.cells).isSome = true

/-- The open parameter is in its range (R5). -/
abbrev Memory.SizeLegal (m : Memory) : Prop := 1 ≤ m.size ∧ m.size ≤ Config.maxBufBytes

/-- R36 (b): `STATE == EMPTY` implies `BITCOUNT == 0`. -/
abbrev State.EmptyHasNoBits (s : State) : Prop := s.unit = .empty → s.bitCount = 0

/-- R36 (c): `STATE == READY` implies `BITCOUNT <= MAX_BITS`, hence `NB + 1 <= BUF_BYTES`. -/
abbrev State.ReadyFits (s : State) : Prop :=
  s.unit = .ready → s.bitCount.toNat ≤ maxBits s.buf.size ∧ s.nb + 1 ≤ s.buf.size

/-- R36 (d): `STATE == FAULTED` if and only if `CAUSE != 0`. -/
abbrev State.CauseIffFaulted (s : State) : Prop := s.unit = .faulted ↔ s.cause ≠ .none

/-- R36 (e): `STATE != FAULTED` implies `FOP == 0` and `FARG == 0`. -/
abbrev State.FaultRegistersClear (s : State) : Prop := s.unit ≠ .faulted → s.fop = 0 ∧ s.farg = 0

/-- R36 (f): in state READY every byte `0 .. NB` of BUF holds a definite value. -/
abbrev State.ReadyHoldsBytes (s : State) : Prop := s.unit = .ready → s.buf.HoldsBelow (s.nb + 1)

/-- R30: in state EMPTY no byte of BUF holds a value ("A model holds BUF in state EMPTY as "no value""). -/
abbrev State.EmptyHoldsNoByte (s : State) : Prop := s.unit = .empty → s.buf.cells = []

/-- The invariants of R36 ((a) holds by the type of `unit`), the range of `BUF_BYTES` (R5), the canonical form of the
memory, and R30. -/
abbrev State.Inv (s : State) : Prop :=
  s.buf.SizeLegal ∧ s.buf.wf = true ∧ s.EmptyHasNoBits ∧ s.ReadyFits ∧ s.CauseIffFaulted ∧ s.FaultRegistersClear ∧
    s.ReadyHoldsBytes ∧ s.EmptyHoldsNoByte

/-- A state with an array in it: the states in which the array commands have their effect. -/
abbrev State.ReadyInv (s : State) : Prop := s.unit = .ready ∧ s.Inv

/-- The seven commands that need an array (R160 step 3). -/
def needsArray : Instr → Bool
  | .create _ => false
  | .destroy => false
  | .size => true
  | .get _ => true
  | .set _ _ => true
  | .get64 _ => true
  | .set64 _ _ => true
  | .reverse _ _ => true
  | .rotate _ _ _ => true
  | .status => false

/-- `s` after the response `r`, every other field as it was. -/
abbrev State.answering (s : State) (r : Response) : State := { s with responses := s.responses ++ [r] }

/-- `s` after fault entry with `cause` for a command of opcode `op` and field A `a` (R158): the four registers, and the
FAULT response that reports them; every other field as it was. -/
abbrev State.faulting (s : State) (cause : Cause) (op : Byte) (a : Word) : State :=
  { s with unit := .faulted, cause := cause, fop := op, farg := a,
           responses := s.responses ++ [⟨.fault, cause, op, .faulted, a⟩] }

/-- The last response as it leaves the unit. -/
def State.lastResponseWord (s : State) : Option ResponseWord := s.responses.getLast?.map responseWord

/-- A response of a good run: its status is neither FAULT nor FAULTED (R188). -/
def Response.good (r : Response) : Bool :=
  match r.status with
  | .ok => true
  | .noHandle => true
  | .fault => false
  | .faulted => false

/-- "no response had status FAULT or FAULTED" (R188). -/
def State.goodRun (s : State) : Bool := s.responses.all Response.good

/-- The registers a fault entry writes are as they were (R158, R159). -/
abbrev sameFaultRegisters (s t : State) : Prop := t.cause = s.cause ∧ t.fop = s.fop ∧ t.farg = s.farg

/-- The architectural state `(STATE, BITCOUNT, CAUSE, FOP, FARG, BUF)` of R20 is as it was. -/
abbrev sameArchitecture (s t : State) : Prop :=
  t.unit = s.unit ∧ t.bitCount = s.bitCount ∧ sameFaultRegisters s t ∧ t.buf = s.buf

end Sys2Proof.Machine
end

