-- ==== Sys2Proof/Certificates/Slice0/Obligations.lean ====
section
/-! DEFINITION. The statements about the BHU. Each docstring names the rules of `spec/` it formalises. `s.ReadyInv` is a
state READY that meets the invariants of R36; `BUF_BYTES` is `s.buf.size`, so every statement about every state is one
about every value of that open parameter (log 1). `s.answering r` and `s.faulting cause op a` change only the fields their
definitions write out. -/

open Sys2Proof Sys2Proof.Machine

/-! ### Encoding -/

/-- Every command an assembler accepts (R71) is read back from its encoding (R62, R66). -/
def Obligations.EncodedCommandDecodesBack : Prop :=
  ∀ i : Instr, i.WellFormed → decode (encode i) = .ok i

/-- "decoding followed by encoding is the identity on legal commands", and what is decoded has operands that fit (R66). -/
def Obligations.DecodedCommandEncodesBack : Prop :=
  ∀ (cmd : Command) (i : Instr), decode cmd = .ok i → i.WellFormed ∧ encode i = cmd

/-- R63: a `CMD` encodes a command if and only if it matches that command's pattern, and at most one pattern matches. -/
def Obligations.CommandMatchesItsPatternExactly : Prop :=
  (∀ p ∈ patterns, ∀ cmd : Command, p.covers cmd = true ↔ ∃ i, decode cmd = .ok i ∧ mnemonicOf i = p.mnemonic) ∧
  (∀ i : Instr, ∃ p ∈ patterns, p.mnemonic = mnemonicOf i) ∧
  (∀ p ∈ patterns, ∀ q ∈ patterns, ∀ cmd : Command, p.covers cmd = true → q.covers cmd = true → p = q)

/-- R66: which commands are illegal, and that an illegal command received in state EMPTY or READY raises ILLEGAL_CMD and
does nothing else. -/
def Obligations.IllegalCommandsAreTheseAndFault : Prop :=
  (∀ cmd : Command, (∀ i, decode cmd ≠ .ok i) ↔
    (commandOp cmd = 0 ∨ 0x0B ≤ (commandOp cmd).toNat ∨ commandRsv cmd ≠ 0 ∨
      ((commandOp cmd).toNat ∈ [0x02, 0x03, 0x0A] ∧ commandA cmd ≠ 0) ∨
      ((commandOp cmd).toNat ∈ [0x01, 0x02, 0x03, 0x04, 0x06, 0x0A] ∧ commandB cmd ≠ 0) ∨
      ((commandOp cmd).toNat ≠ 0x09 ∧ commandC cmd ≠ 0) ∨
      ((commandOp cmd).toNat = 0x05 ∧ 1 < (commandB cmd).toNat))) ∧
  (∀ (s : State) (cmd : Command) (rest : List HostEvent), s.events = .command cmd :: rest → s.unit ≠ .faulted →
    (∀ i, decode cmd ≠ .ok i) →
    step s = .next (({ s with events := rest } : State).faulting .illegalCmd (commandOp cmd) (commandA cmd)))

/-- R70: the tests of the decode procedure in their order; the name of a rejection is the first test that fails. -/
def Obligations.RejectionNamesFirstFailedTest : Prop :=
  ∀ cmd : Command,
    (decode cmd = .error .reservedBits ↔ commandRsv cmd ≠ 0) ∧
    (decode cmd = .error .unknownOpcode ↔
      commandRsv cmd = 0 ∧ ((commandOp cmd).toNat = 0 ∨ 0x0B ≤ (commandOp cmd).toNat)) ∧
    (decode cmd = .error .unusedOperand ↔
      commandRsv cmd = 0 ∧
        (((commandOp cmd).toNat ∈ [0x02, 0x03, 0x0A] ∧ ¬ (commandA cmd = 0 ∧ commandB cmd = 0 ∧ commandC cmd = 0)) ∨
          ((commandOp cmd).toNat ∈ [0x01, 0x04, 0x06] ∧ ¬ (commandB cmd = 0 ∧ commandC cmd = 0)) ∨
          ((commandOp cmd).toNat ∈ [0x05, 0x07, 0x08] ∧ commandC cmd ≠ 0))) ∧
    (decode cmd = .error .setValue ↔
      commandRsv cmd = 0 ∧ (commandOp cmd).toNat = 0x05 ∧ commandC cmd = 0 ∧ 1 < (commandB cmd).toNat)

/-- R64, R67, R70 step 5: each row of R62 reads its operand fields whole, `A` and `B` unsigned, SET's value from bit 0. -/
def Obligations.RowsReadTheirOperandFields : Prop :=
  ∀ a b : Word,
    decode (commandOf 0 0 a 0x01) = .ok (.create a.toNat) ∧
    decode (commandOf 0 0 0 0x02) = .ok .destroy ∧
    decode (commandOf 0 0 0 0x03) = .ok .size ∧
    decode (commandOf 0 0 a 0x04) = .ok (.get a.toNat) ∧
    decode (commandOf 0 0 a 0x05) = .ok (.set a.toNat false) ∧
    decode (commandOf 0 1 a 0x05) = .ok (.set a.toNat true) ∧
    decode (commandOf 0 0 a 0x06) = .ok (.get64 a.toNat) ∧
    decode (commandOf 0 b a 0x07) = .ok (.set64 a.toNat b) ∧
    decode (commandOf 0 b a 0x08) = .ok (.reverse a.toNat b.toNat) ∧
    decode (commandOf 0 0 0 0x0A) = .ok .status

/-- R65: ROTATE's amount is `sext_64(C)`, in `-2^63 .. 2^63 - 1`; the rule's example. -/
def Obligations.RotateAmountIsSignExtendedC : Prop :=
  (∀ a b c : Word, ∃ r : Int, decode (commandOf c b a 0x09) = .ok (.rotate a.toNat b.toNat r) ∧
    r = (if c.toNat < 2 ^ 63 then (c.toNat : Int) else (c.toNat : Int) - 2 ^ 64) ∧ -(2 ^ 63) ≤ r ∧ r ≤ 2 ^ 63 - 1) ∧
  (∀ a b : Word, decode (commandOf 0xFFFFFFFFFFFFFFD1 b a 0x09) = .ok (.rotate a.toNat b.toNat (-47)))

/-- Words written out from the spec's encodings (R68, `95_test_vectors.md` 2.1) decode to the commands they stand for. -/
def Obligations.WrittenWordsDecode : Prop :=
  decode 0x000000000000000000000000000000000000000000000005_0000000000000004#256 = .ok (.get 5) ∧
  decode 0x00000000000000000000000000000000_00000000000000C8_0000000000000001#256 = .ok (.create 200) ∧
  decode 0x0000000000000000_0000000000000001_0000000000000096_0000000000000005#256 = .ok (.set 150 true) ∧
  decode 0x0000000000000000_0123456789ABCDEF_0000000000000003_0000000000000007#256
    = .ok (.set64 3 0x0123456789ABCDEF) ∧
  decode 0x0000000000000000_00000000000000B4_000000000000000A_0000000000000008#256 = .ok (.reverse 10 180) ∧
  decode 0xFFFFFFFFFFFFFFD1_00000000000000B4_000000000000000A_0000000000000009#256 = .ok (.rotate 10 180 (-47)) ∧
  decode 0x0000000000000000_0000000000000002_0000000000000005_0000000000000005#256 = .error .setValue ∧
  decode 0#256 = .error .unknownOpcode

/-- The fields of `RSP` (R61) with the codes of R21, R69 and R156. -/
def Obligations.ResponseWordLaysOutItsFields : Prop :=
  (∀ r : Response,
    (responseWord r).extractLsb' 0 8 = statusCode r.status ∧ (responseWord r).extractLsb' 8 8 = causeCode r.cause ∧
    (responseWord r).extractLsb' 16 8 = r.fop ∧ (responseWord r).extractLsb' 24 2 = unitStateCode r.unit ∧
    (responseWord r).extractLsb' 26 38 = 0 ∧ (responseWord r).extractLsb' 64 64 = r.value) ∧
  [UnitState.empty, .ready, .faulted].map unitStateCode = [0, 1, 2] ∧
  [Status.ok, .noHandle, .fault, .faulted].map statusCode = [0, 1, 2, 3] ∧
  [Cause.none, .illegalCmd, .noArray, .indexRange, .wideBound, .rangeBound, .zeroDivisor].map causeCode
    = [0, 1, 2, 3, 4, 5, 6]

/-! ### The step -/

/-- R160 step 4 at the level of `step`: a presented command that decodes is executed, in every state. What `step` adds is
that the command is taken off what the host presents. That the presented commands stand in the field `events`, and that
`exec` in state FAULTED answers as R159 says, are the model's choices (log 5, log 12). -/
def Obligations.StepRunsTheDecodedCommand : Prop :=
  ∀ (s : State) (cmd : Command) (rest : List HostEvent) (i : Instr),
    s.events = .command cmd :: rest → decode cmd = .ok i → step s = exec i { s with events := rest }

/-- R159: in state FAULTED every `CMD`, legal or not, is answered FAULTED with `FARG` and changes no state (first clause, at
the step), with the rule's example (third clause). The second clause, that `exec` of a command answers the same there, is the
model's choice (log 12): the unit decodes and executes nothing in FAULTED. -/
def Obligations.FaultedUnitAnswersEveryCommandFaulted : Prop :=
  (∀ (s : State) (cmd : Command) (rest : List HostEvent), s.unit = .faulted → s.events = .command cmd :: rest →
    step s = .next (({ s with events := rest } : State).answering ⟨.faulted, s.cause, s.fop, .faulted, s.farg⟩)) ∧
  (∀ (s : State) (i : Instr), s.unit = .faulted →
    exec i s = .next (s.answering ⟨.faulted, s.cause, s.fop, .faulted, s.farg⟩)) ∧
  (∀ s : State, s.unit = .ready → s.bitCount = 16 →
    ∃ t u, exec (.get 16) s = .next t ∧ exec .size t = .next u ∧
      u.lastResponseWord = some 0x0000000000000010_0000000002040303#128)

/-- R180, R181: what the reset event leaves, also when it cuts a command short: the values of R37, no byte of BUF with a
value, no response. That both resets are events of the field `events` is the model's choice (log 5, log 7). -/
def Obligations.ResetEventClearsTheUnit : Prop :=
  ∀ (s : State) (rest : List HostEvent),
    (s.events = .reset :: rest ∨ ∃ cmd, s.events = .cutCommand cmd :: rest) →
    ∃ t, step s = .next t ∧ t.unit = .empty ∧ t.bitCount = 0 ∧ t.cause = .none ∧ t.fop = 0 ∧ t.farg = 0 ∧
      (∀ a v, t.buf.readByte a ≠ .ok v) ∧ t.buf.size = s.buf.size ∧ t.responses = s.responses ∧ t.events = rest

/-- R37: what the state after reset holds, for every `BUF_BYTES`; an unspecified byte of BUF is held as "no value" (R30,
U11). -/
def Obligations.ResetStateHoldsTheResetValues : Prop :=
  ∀ n : Nat, (State.resetWith n).unit = .empty ∧ unitStateCode (State.resetWith n).unit = 0 ∧
    (State.resetWith n).bitCount = 0 ∧ causeCode (State.resetWith n).cause = 0 ∧ (State.resetWith n).fop = 0 ∧
    (State.resetWith n).farg = 0 ∧ ∀ a v, (State.resetWith n).buf.readByte a ≠ .ok v

/-- A unit to which nothing is presented keeps all its state. The spec describes no step without a command or a reset; that
there is an idle step, and that it changes nothing, is the model's (log 8; R51, R167). -/
def Obligations.IdleUnitKeepsItsState : Prop :=
  ∀ s : State, s.events = [] → step s = .next s

/-- R158: fault entry writes `CAUSE`, `FOP`, `FARG` and `STATE` and answers FAULT with `FARG`, nothing else; the rule's
example. -/
def Obligations.FaultEntryWritesTheFaultRegisters : Prop :=
  (∀ (cause : Cause) (cmd : Command) (s : State),
    raiseFault cause cmd s = s.faulting cause (cmd.extractLsb' 0 8) (cmd.extractLsb' 64 64)) ∧
  (∀ s : State, s.unit = .ready → s.bitCount = 16 →
    ∃ t, exec (.get 16) s = .next t ∧ t.lastResponseWord = some 0x0000000000000010_0000000002040302#128)

/-- R157, R24, R25, R26: a step into FAULTED is a command's, it latches that command's `CMD[7:0]` and `CMD[127:64]` and a
cause, and leaves BUF and `BITCOUNT` exactly as they were. -/
def Obligations.FaultsArePrecise : Prop :=
  ∀ s t : State, step s = .next t → s.unit ≠ .faulted → t.unit = .faulted →
    ∃ cmd rest, s.events = .command cmd :: rest ∧ t.fop = cmd.extractLsb' 0 8 ∧ t.farg = cmd.extractLsb' 64 64 ∧
      t.cause ≠ .none ∧ t.buf = s.buf ∧ t.bitCount = s.bitCount ∧
      t.responses = s.responses ++ [⟨.fault, t.cause, t.fop, .faulted, t.farg⟩]

/-- R161: no command leaves FAULTED or clears `CAUSE`; the only exit is reset, which leaves the unit EMPTY with the fault
registers zero and the array lost. -/
def Obligations.OnlyResetLeavesFaulted : Prop :=
  (∀ s t : State, step s = .next t → s.unit = .faulted → t.unit ≠ .faulted →
    (∃ rest, s.events = .reset :: rest ∨ ∃ cmd, s.events = .cutCommand cmd :: rest) ∧
    t.unit = .empty ∧ t.cause = .none ∧ t.fop = 0 ∧ t.farg = 0 ∧ t.bitCount = 0 ∧ ∀ a v, t.buf.readByte a ≠ .ok v) ∧
  (∀ (s t : State) (cmd : Command) (rest : List HostEvent), s.events = .command cmd :: rest → step s = .next t →
    t.cause = .none → s.cause = .none)

/-- R21: the transitions of `STATE`, and that every response reports it. -/
def Obligations.UnitStateTransitions : Prop :=
  ∀ s t : State, step s = .next t →
    (t.unit = s.unit ∨
      (s.unit = .empty ∧ t.unit = .ready ∧
        ∃ cmd rest n, s.events = .command cmd :: rest ∧ decode cmd = .ok (.create n)) ∨
      (s.unit = .ready ∧ t.unit = .empty ∧
        ∃ cmd rest, s.events = .command cmd :: rest ∧ decode cmd = .ok .destroy) ∨
      (s.unit ≠ .faulted ∧ t.unit = .faulted ∧ t.cause ≠ .none ∧ ∃ cmd rest, s.events = .command cmd :: rest) ∨
      (t.unit = .empty ∧ ∃ rest, s.events = .reset :: rest ∨ ∃ cmd, s.events = .cutCommand cmd :: rest)) ∧
    (∀ cmd rest, s.events = .command cmd :: rest → ∃ r, t.responses = s.responses ++ [r] ∧ r.unit = t.unit)

/-- R22: `BITCOUNT` is written only by a successful CREATE (to operand `A`), by DESTROY (to 0) and by reset (to 0). -/
def Obligations.OnlyLifeCycleWritesBitCount : Prop :=
  ∀ s t : State, step s = .next t → t.bitCount ≠ s.bitCount →
    (∃ cmd rest n, s.events = .command cmd :: rest ∧ decode cmd = .ok (.create n) ∧ s.unit = .empty ∧
      t.unit = .ready ∧ t.bitCount = cmd.extractLsb' 64 64) ∨
    (∃ cmd rest, s.events = .command cmd :: rest ∧ decode cmd = .ok .destroy ∧ t.unit = .empty ∧ t.bitCount = 0) ∨
    ((∃ rest, s.events = .reset :: rest ∨ ∃ cmd, s.events = .cutCommand cmd :: rest) ∧ t.bitCount = 0)

/-! ### Invariants -/

/-- R36 with the range of `BUF_BYTES` and the canonical form of the memory: every step keeps it. -/
def Obligations.EveryStepKeepsTheInvariant : Prop :=
  ∀ s t : State, s.Inv → step s = .next t → t.Inv

/-- R37: the invariant holds at reset, for every legal `BUF_BYTES` and whatever the host presents. `State.reset` is the reset
of a unit of 64 bytes, the model's choice (log 1). -/
def Obligations.ResetStateMeetsTheInvariant : Prop :=
  (∀ (n : Nat) (es : List HostEvent), 1 ≤ n → n ≤ 2 ^ 61 → ({ State.resetWith n with events := es } : State).Inv) ∧
  State.reset.Inv

/-- R36: the invariants (a) to (f) hold in every state reachable from reset by commands and resets, whatever they are. -/
def Obligations.ReachableStatesMeetRuleThirtySix : Prop :=
  ∀ (n : Nat) (es : List HostEvent) (k : Nat) (t : State), 1 ≤ n → n ≤ 2 ^ 61 →
    Host.Core.run Sys2Proof.core k ({ State.resetWith n with events := es } : State) = .next t →
    (unitStateCode t.unit = 0 ∨ unitStateCode t.unit = 1 ∨ unitStateCode t.unit = 2) ∧
    (t.unit = .empty → t.bitCount = 0) ∧
    (t.unit = .ready → t.bitCount.toNat ≤ 8 * (n - 1) ∧ t.nb + 1 ≤ n) ∧
    (t.unit = .faulted ↔ causeCode t.cause ≠ 0) ∧
    (t.unit ≠ .faulted → t.fop = 0 ∧ t.farg = 0) ∧
    (t.unit = .ready → ∀ a, a ≤ t.nb → ∃ v, t.buf.readByte a = .ok v)

/-- R160, R47, R51: in a state that meets the invariant the step always answers a next state, with exactly one response to
a command and none to a reset; no command can stop the unit. -/
def Obligations.LegalStateAlwaysSteps : Prop :=
  ∀ s : State, s.Inv → ∃ t, step s = .next t ∧
    match s.events with
    | [] => t = s
    | .command _ :: rest => t.events = rest ∧ ∃ r, t.responses = s.responses ++ [r]
    | .reset :: rest => t.events = rest ∧ t.responses = s.responses
    | .cutCommand _ :: rest => t.events = rest ∧ t.responses = s.responses

/-- R188: the step into state FAULTED is what ends a good run, and no good run is in it. -/
def Obligations.GoodRunIsNeverFaulted : Prop :=
  ∀ s t : State, step s = .next t → s.goodRun = true → s.unit ≠ .faulted → (t.goodRun = true ↔ t.unit ≠ .faulted)

/-- R165: no step raises ZERO_DIVISOR. -/
def Obligations.ZeroDivisorIsNeverRaised : Prop :=
  ∀ s t : State, step s = .next t → t.cause = .zeroDivisor → s.cause = .zeroDivisor

/-- R162: the outcomes each command can have outside FAULTED, complete. -/
def Obligations.CommandsAnswerOnlyTheirOutcomes : Prop :=
  ∀ (i : Instr) (s t : State), exec i s = .next t → s.unit ≠ .faulted → ∃ r, t.responses = s.responses ++ [r] ∧
    ((r.status = .ok ∧ r.cause = s.cause) ∨
      (r.status = .noHandle ∧ r.cause = s.cause ∧ ∃ n, i = .create n) ∨
      (r.status = .fault ∧ r.cause = .noArray ∧ needsArray i = true) ∨
      (r.status = .fault ∧ r.cause = .indexRange ∧ ((∃ a, i = .get a) ∨ ∃ a v, i = .set a v)) ∨
      (r.status = .fault ∧ r.cause = .wideBound ∧ ((∃ a, i = .get64 a) ∨ ∃ a v, i = .set64 a v)) ∨
      (r.status = .fault ∧ r.cause = .rangeBound ∧ ((∃ a b, i = .reverse a b) ∨ ∃ a b c, i = .rotate a b c)))

/-! ### Life cycle -/

/-- R140, R182: in state EMPTY, CREATE of an array that fits makes it: `BITCOUNT` is the operand, every bit of the nominal
buffer and of the guard byte is 0, no other byte changes. -/
def Obligations.CreateMakesAZeroedArray : Prop :=
  ∀ (s : State) (n : Nat), s.Inv → s.unit = .empty → byteCount n + 1 ≤ s.buf.size →
    ∃ m : Memory, exec (.create n) s = .next
        (({ s with unit := .ready, bitCount := BitVec.ofNat 64 n, buf := m } : State).answering
          ⟨.ok, s.cause, s.fop, .ready, 0⟩) ∧
      (BitVec.ofNat 64 n).toNat = n ∧ m.size = s.buf.size ∧
      (∀ a, a ≤ byteCount n → m.readByte a = .ok 0) ∧ (∀ i, i < 8 * (byteCount n + 1) → m.bit i = .ok false) ∧
      (∀ a, byteCount n < a → m.readByte a = s.buf.readByte a)

/-- R141: CREATE answers NOHANDLE and changes nothing when the unit is READY already or the array with its guard byte does
not fit, `ceil(A/8) + 1 > BUF_BYTES`, equivalently `A > MAX_BITS`. -/
def Obligations.CreateWithoutRoomAnswersNoHandle : Prop :=
  ∀ (s : State) (n : Nat), s.buf.SizeLegal →
    (s.unit = .ready ∨ (s.unit = .empty ∧ maxBits s.buf.size < n) →
      exec (.create n) s = .next (s.answering ⟨.noHandle, s.cause, s.fop, s.unit, 0⟩)) ∧
    (s.buf.size < byteCount n + 1 ↔ maxBits s.buf.size < n)

/-- R142: DESTROY leaves the unit EMPTY with no bit and no byte of BUF with a value (how the model holds "unspecified",
log 2); where it was EMPTY nothing changes. -/
def Obligations.DestroyGivesTheArrayUp : Prop :=
  (∀ s : State, s.unit ≠ .faulted → ∃ m : Memory,
    exec .destroy s = .next (({ s with unit := .empty, bitCount := 0, buf := m } : State).answering
      ⟨.ok, s.cause, s.fop, .empty, 0⟩) ∧
    m.size = s.buf.size ∧ ∀ a v, m.readByte a ≠ .ok v) ∧
  (∀ s : State, s.Inv → s.unit = .empty →
    exec .destroy s = .next (s.answering ⟨.ok, s.cause, s.fop, .empty, 0⟩))

/-- R143: SIZE answers `BITCOUNT` and changes nothing. -/
def Obligations.SizeReadsBitCount : Prop :=
  ∀ s : State, s.unit = .ready → exec .size s = .next (s.answering ⟨.ok, s.cause, s.fop, .ready, s.bitCount⟩)

/-- R144: STATUS answers `FARG` and changes nothing; in a legal state EMPTY or READY it reports cause 0, fop 0, value 0, and
in FAULTED it is answered FAULTED with the fault registers. -/
def Obligations.StatusReportsTheCondition : Prop :=
  ∀ s : State,
    (s.unit ≠ .faulted → exec .status s = .next (s.answering ⟨.ok, s.cause, s.fop, s.unit, s.farg⟩)) ∧
    (s.unit ≠ .faulted → s.Inv → exec .status s = .next (s.answering ⟨.ok, .none, 0, s.unit, 0⟩)) ∧
    (s.unit = .faulted → exec .status s = .next (s.answering ⟨.faulted, s.cause, s.fop, .faulted, s.farg⟩))

/-- R160 step 3, R156: each of the seven commands that need an array faults with NO_ARRAY in state EMPTY, with whatever
operands. -/
def Obligations.ArrayCommandsFaultWithoutAnArray : Prop :=
  ∀ (s : State) (i : Instr), s.unit = .empty → needsArray i = true →
    exec i s = .next (s.faulting .noArray (opcodeOf i) (fieldA i))

/-! ### Bit accessor -/

/-- R81: GET in range answers the bit and changes nothing. -/
def Obligations.GetReadsTheBit : Prop :=
  ∀ (s : State) (i : Nat), s.ReadyInv → i < s.bitCount.toNat →
    ∃ v : Bool, s.buf.bit i = .ok v ∧
      exec (.get i) s = .next (s.answering ⟨.ok, s.cause, s.fop, .ready, if v then 1 else 0⟩)

/-- R82, R80: SET in range writes the one bit: no other bit, no other byte, no register changes. -/
def Obligations.SetWritesTheBitOnly : Prop :=
  ∀ (s : State) (i : Nat) (v : Bool), s.ReadyInv → i < s.bitCount.toNat →
    ∃ m : Memory,
      exec (.set i v) s = .next (({ s with buf := m } : State).answering ⟨.ok, s.cause, s.fop, .ready, 0⟩) ∧
      m.size = s.buf.size ∧ m.bit i = .ok v ∧ (∀ j, j ≠ i → m.bit j = s.buf.bit j) ∧
      (∀ a, a ≠ byteIndex i → m.readByte a = s.buf.readByte a)

/-- R81, R82, R156: GET and SET of an index `>= BITCOUNT` fault with INDEX_RANGE; BUF is not touched. -/
def Obligations.IndexOutOfRangeFaults : Prop :=
  ∀ (s : State) (i : Nat), s.unit = .ready → s.bitCount.toNat ≤ i →
    exec (.get i) s = .next (s.faulting .indexRange 0x04 (BitVec.ofNat 64 i)) ∧
    ∀ v : Bool, exec (.set i v) s = .next (s.faulting .indexRange 0x05 (BitVec.ofNat 64 i))

/-- R83: after `SET i, v` the command `GET i` answers `OK(v)`, and no other bit of the nominal buffer or the guard byte
changes. -/
def Obligations.SetThenGetRoundTrip : Prop :=
  ∀ (s : State) (i : Nat) (v : Bool), s.ReadyInv → i < s.bitCount.toNat →
    ∃ s₁ : State, exec (.set i v) s = .next s₁ ∧
      exec (.get i) s₁ = .next (s₁.answering ⟨.ok, s₁.cause, s₁.fop, .ready, if v then 1 else 0⟩) ∧
      ∀ j, j ≠ i → j < 8 * (s.nb + 1) → s₁.buf.bit j = s.buf.bit j

/-! ### Wide accessor -/

/-- R94: the bound, what it means for the nine bytes, the source's form of it, its largest index, and that no access is in
bound when `NB < 8`. -/
def Obligations.WideBoundAgreesWithTheSource : Prop :=
  ∀ (s : State) (i : Nat),
    (s.wideInBound i = true ↔ i / 8 + 8 ≤ s.nb) ∧
    (s.wideInBound i = true ↔ byteIndex i + 7 < s.nb ∧ byteIndex i + 8 ≤ s.nb) ∧
    (s.wideInBound i = true ↔ i + 64 ≤ 8 * s.nb + 7) ∧
    (s.nb < 8 → s.wideInBound i = false) ∧ (8 ≤ s.nb → (s.wideInBound i = true ↔ i ≤ 8 * (s.nb - 8) + 7))

/-- R97, R90: in bound, `get64(i)[k] == bit(i + k)`, and GET64 answers that window and changes nothing. -/
def Obligations.Get64ReadsTheWindow : Prop :=
  ∀ (s : State) (i : Nat), s.ReadyInv → i / 8 + 8 ≤ s.nb →
    ∃ w : Word, s.buf.get64 i = .ok w ∧ (∀ k, k < 64 → s.buf.bit (i + k) = .ok (w.getLsbD k)) ∧
      exec (.get64 i) s = .next (s.answering ⟨.ok, s.cause, s.fop, .ready, w⟩)

/-- R98, R92: in bound, SET64 writes the 64 bits of its window and nothing else; bytes outside `b .. b+8` are not written. -/
def Obligations.Set64WritesTheWindowOnly : Prop :=
  ∀ (s : State) (i : Nat) (v : Word), s.ReadyInv → i / 8 + 8 ≤ s.nb →
    ∃ m : Memory, s.buf.set64 i v = .ok m ∧
      exec (.set64 i v) s = .next (({ s with buf := m } : State).answering ⟨.ok, s.cause, s.fop, .ready, 0⟩) ∧
      m.size = s.buf.size ∧ (∀ k, k < 64 → m.bit (i + k) = .ok (v.getLsbD k)) ∧
      (∀ j, j < i ∨ i + 64 ≤ j → m.bit j = s.buf.bit j) ∧
      (∀ a, a < byteIndex i ∨ byteIndex i + 8 < a → m.readByte a = s.buf.readByte a)

/-- R90, R92, R156: GET64 and SET64 out of bound fault with WIDE_BOUND; BUF is not touched. -/
def Obligations.WindowOutOfBoundFaults : Prop :=
  ∀ (s : State) (i : Nat), s.unit = .ready → s.nb < i / 8 + 8 →
    exec (.get64 i) s = .next (s.faulting .wideBound 0x06 (BitVec.ofNat 64 i)) ∧
    ∀ v : Word, exec (.set64 i v) s = .next (s.faulting .wideBound 0x07 (BitVec.ofNat 64 i))

/-- R96: reads of every width after SET64 see its bits, and GET64 after SET sees the one bit. -/
def Obligations.MixedWidthReadAfterWrite : Prop :=
  (∀ (s : State) (i : Nat) (v : Word), s.ReadyInv → i / 8 + 8 ≤ s.nb →
    ∃ s₁ : State, exec (.set64 i v) s = .next s₁ ∧
      exec (.get64 i) s₁ = .next (s₁.answering ⟨.ok, s₁.cause, s₁.fop, .ready, v⟩) ∧
      (∀ k, k < 64 → i + k < s.bitCount.toNat →
        exec (.get (i + k)) s₁ = .next (s₁.answering ⟨.ok, s₁.cause, s₁.fop, .ready, if v.getLsbD k then 1 else 0⟩)) ∧
      (∀ j, j / 8 + 8 ≤ s.nb → ∃ w : Word,
        exec (.get64 j) s₁ = .next (s₁.answering ⟨.ok, s₁.cause, s₁.fop, .ready, w⟩) ∧
        ∀ k, k < 64 → if i ≤ j + k ∧ j + k ≤ i + 63 then w.getLsbD k = v.getLsbD (j + k - i)
          else s.buf.bit (j + k) = .ok (w.getLsbD k))) ∧
  (∀ (s : State) (i j : Nat) (x : Bool), s.ReadyInv → i / 8 + 8 ≤ s.nb → i ≤ j → j ≤ i + 63 → j < s.bitCount.toNat →
    ∃ (s₁ : State) (old new : Word), s.buf.get64 i = .ok old ∧ exec (.set j x) s = .next s₁ ∧
      exec (.get64 i) s₁ = .next (s₁.answering ⟨.ok, s₁.cause, s₁.fop, .ready, new⟩) ∧
      ∀ k, k < 64 → new.getLsbD k = if k = j - i then x else old.getLsbD k)

/-- R48: GET, GET64, SIZE and STATUS that do not fault change no state, and repeating one gives the same response. -/
def Obligations.ReadsHaveNoSideEffect : Prop :=
  ∀ (s t : State) (i : Instr), (i = .size ∨ i = .status ∨ (∃ a, i = .get a) ∨ ∃ a, i = .get64 a) →
    exec i s = .next t → t.unit = s.unit →
    sameArchitecture s t ∧ ∃ r, t = s.answering r ∧ exec i t = .next (t.answering r)

/-- R48: SET and SET64 are idempotent. -/
def Obligations.RepeatedWriteChangesNothing : Prop :=
  ∀ (s t u : State) (i : Instr), s.Inv → ((∃ a v, i = .set a v) ∨ ∃ a w, i = .set64 a w) →
    exec i s = .next t → exec i t = .next u → sameArchitecture t u

/-! ### Range reversal -/

/-- R105: `brev64`, on bits and as a sum, its laws and its examples. -/
def Obligations.BrevReversesTheWord : Prop :=
  (∀ (w : Word) (k : Nat), k < 64 → (brev64 w).getLsbD k = w.getLsbD (63 - k)) ∧
  (∀ w : Word, (brev64 w).toNat = ((List.range 64).map fun k => (w.getLsbD k).toNat * 2 ^ (63 - k)).sum) ∧
  (∀ w : Word, brev64 (brev64 w) = w) ∧ brev64 0 = 0 ∧ brev64 0xFFFFFFFFFFFFFFFF = 0xFFFFFFFFFFFFFFFF ∧
  (∀ k, k < 64 → brev64 (BitVec.ofNat 64 (2 ^ k)) = BitVec.ofNat 64 (2 ^ (63 - k))) ∧
  (∀ a b : Word, brev64 (a ||| b) = brev64 a ||| brev64 b) ∧
  brev64 1 = 0x8000000000000000 ∧ brev64 0x0123456789ABCDEF = 0xF7B3D591E6A2C480 ∧
  brev64 0x00000000FFFFFFFF = 0xFFFFFFFF00000000 ∧ brev64 0xAAAAAAAAAAAAAAAA = 0x5555555555555555

/-- R110, R111, R107: REVERSE of a range inside the array puts the bit at `start + length - 1 - k` at `start + k`, changes
no other bit and no byte outside the range, and never stops; reversing an empty range changes nothing. -/
def Obligations.ReverseMirrorsTheRange : Prop :=
  (∀ (m : Memory) (start : Nat), m.reverse start 0 = .ok m) ∧
  ∀ (s : State) (start length : Nat), s.ReadyInv → 0 < length → start + length ≤ s.bitCount.toNat →
    ∃ m : Memory, s.buf.reverse start length = .ok m ∧
      exec (.reverse start length) s
        = .next (({ s with buf := m } : State).answering ⟨.ok, s.cause, s.fop, .ready, 0⟩) ∧
      m.size = s.buf.size ∧ (∀ k, k < length → m.bit (start + k) = s.buf.bit (start + length - 1 - k)) ∧
      (∀ j, j < start ∨ start + length ≤ j → m.bit j = s.buf.bit j) ∧
      (∀ a, 8 * a + 8 ≤ start ∨ start + length ≤ 8 * a → m.readByte a = s.buf.readByte a)

/-- R107, R126: REVERSE and ROTATE of length 0 change nothing, whatever the start and the amount. -/
def Obligations.EmptyRangeIsANoOp : Prop :=
  ∀ (s : State) (start : Nat), s.unit = .ready →
    exec (.reverse start 0) s = .next (s.answering ⟨.ok, s.cause, s.fop, .ready, 0⟩) ∧
    ∀ r : Int, exec (.rotate start 0 r) s = .next (s.answering ⟨.ok, s.cause, s.fop, .ready, 0⟩)

/-- R107, R125, R156: REVERSE and ROTATE of a range of length > 0 that extends past `BITCOUNT` fault with RANGE_BOUND,
whatever the amount; BUF is not touched. -/
def Obligations.RangePastTheEndFaults : Prop :=
  ∀ (s : State) (start length : Nat), s.unit = .ready → 0 < length → s.bitCount.toNat < start + length →
    exec (.reverse start length) s = .next (s.faulting .rangeBound 0x08 (BitVec.ofNat 64 start)) ∧
    ∀ r : Int, exec (.rotate start length r) s = .next (s.faulting .rangeBound 0x09 (BitVec.ofNat 64 start))

/-- R112: REVERSE twice in a row leaves BUF exactly as it was, every byte, from any READY state; and reversing `[0, n)` gives
the mirror image. -/
def Obligations.ReverseTwiceRestores : Prop :=
  (∀ (s : State) (start length : Nat), s.ReadyInv →
    ∃ s₁ s₂ : State, exec (.reverse start length) s = .next s₁ ∧ exec (.reverse start length) s₁ = .next s₂ ∧
      s₂.buf = s.buf) ∧
  (∀ (s : State) (n : Nat), s.ReadyInv → n ≤ s.bitCount.toNat →
    ∃ s₁ : State, exec (.reverse 0 n) s = .next s₁ ∧ ∀ k, k < n → s₁.buf.bit k = s.buf.bit (n - 1 - k))

/-- R184, the worked case: the byte shared by the two footprints of the last bulk iteration is 06, not the stale 1E. -/
def Obligations.SharedByteIsMergedInOrder : Prop :=
  let bytes : List Byte := [0x10, 0x11, 0x12, 0x13, 0x14, 0x15, 0x16, 0x17, 0x18, 0x19, 0x1A, 0x1B, 0x1C, 0x1D, 0x1E,
    0x1F, 0x20, 0x00]
  let after : List Byte := [0x00, 0x3E, 0x1E, 0x2E, 0x0E, 0x36, 0x16, 0x26, 0x06, 0x3A, 0x1A, 0x2A, 0x0A, 0x32, 0x12,
    0x22, 0x22, 0x00]
  Memory.reverse ⟨64, (List.range 18).zip bytes⟩ 3 128 = .ok ⟨64, (List.range 18).zip after⟩

/-! ### Rotation -/

/-- R127: the normalised amount is `r mod B` with `0 <= n < B`, congruent to `r`; the source's formula agrees but at
negative multiples; the rule's examples. -/
def Obligations.AmountIsNormalisedIntoTheLength : Prop :=
  (∀ (r : Int) (b : Nat), 0 < b → ∃ n : Nat, floorMod r b = some n ∧ n < b ∧ (b : Int) ∣ r - n ∧
    (0 ≤ r → n = r.toNat % b) ∧
    (r < 0 → (-r).toNat % b ≠ 0 → n = b - (-r).toNat % b) ∧ (r < 0 → (-r).toNat % b = 0 → n = 0)) ∧
  floorMod (-47) 180 = some 133 ∧ floorMod 47 180 = some 47 ∧ floorMod 3 8 = some 3 ∧ floorMod 19 8 = some 3 ∧
  floorMod (-5) 8 = some 3 ∧ floorMod (-8) 8 = some 0

/-- R130: ROTATE of a range inside the array moves the bit at `offset + k` to `offset + ((k + n) mod length)`, changes no
other bit and no byte outside the range, for every amount. -/
def Obligations.RotateMovesEveryBit : Prop :=
  ∀ (s : State) (offset length : Nat) (r : Int), s.ReadyInv → 0 < length → offset + length ≤ s.bitCount.toNat →
    ∃ (m : Memory) (n : Nat), (n : Int) = r % (length : Int) ∧
      exec (.rotate offset length r) s
        = .next (({ s with buf := m } : State).answering ⟨.ok, s.cause, s.fop, .ready, 0⟩) ∧
      m.size = s.buf.size ∧
      (∀ k, k < length → m.bit (offset + (k + n) % length) = s.buf.bit (offset + k)) ∧
      (∀ k : Nat, k < length →
        m.bit (offset + k) = s.buf.bit (offset + (((k : Int) - (n : Int)) % (length : Int)).toNat)) ∧
      (∀ j, j < offset ∨ offset + length ≤ j → m.bit j = s.buf.bit j) ∧
      (∀ a, 8 * a + 8 ≤ offset ∨ offset + length ≤ 8 * a → m.readByte a = s.buf.readByte a)

/-- R128, R131 (a), (b), (e): ROTATE by a multiple of the length, of length 0 or of length 1 changes nothing. -/
def Obligations.RotateByAMultipleIsANoOp : Prop :=
  ∀ (s : State) (offset length : Nat) (r : Int), s.unit = .ready →
    (length = 0 ∨ (offset + length ≤ s.bitCount.toNat ∧ (length : Int) ∣ r)) →
    exec (.rotate offset length r) s = .next (s.answering ⟨.ok, s.cause, s.fop, .ready, 0⟩)

/-- R131 (c): ROTATE by `k` and then by `-k` restores BUF. -/
def Obligations.RotateBackRestores : Prop :=
  ∀ (s : State) (offset length : Nat) (k : Int), s.ReadyInv →
    (length = 0 ∨ offset + length ≤ s.bitCount.toNat) →
    ∃ s₁ s₂ : State, exec (.rotate offset length k) s = .next s₁ ∧ exec (.rotate offset length (-k)) s₁ = .next s₂ ∧
      s₂.buf = s.buf

/-- R131 (d): a left rotation by `k > 0` is a right rotation by `length - (k mod length)`, in every state. -/
def Obligations.NegativeAmountIsTheComplement : Prop :=
  ∀ (s : State) (offset length k : Nat), 0 < k →
    exec (.rotate offset length (-(k : Int))) s
      = exec (.rotate offset length ((length : Int) - (k : Int) % (length : Int))) s

/-- R131 (f): two rotations compose to the rotation by the sum of the amounts. -/
def Obligations.RotationsCompose : Prop :=
  ∀ (s : State) (offset length : Nat) (r₁ r₂ r : Int), s.ReadyInv → 0 < length →
    offset + length ≤ s.bitCount.toNat → r % (length : Int) = (r₁ + r₂) % (length : Int) →
    ∃ s₁ s₂ t : State, exec (.rotate offset length r₁) s = .next s₁ ∧ exec (.rotate offset length r₂) s₁ = .next s₂ ∧
      exec (.rotate offset length r) s = .next t ∧ s₂.buf = t.buf

/-- R132: the source's normalisation taken literally, `n = length`, leaves BUF as the no-op does. -/
def Obligations.LiteralNormalisationEndsTheSame : Prop :=
  ∀ (s : State) (offset length : Nat), s.ReadyInv → offset + length ≤ s.bitCount.toNat →
    s.buf.threeReversals offset length length = .ok s.buf

/-! ### What no command touches -/

/-- R29, R46: no command but CREATE, DESTROY and SET64 changes a bit outside the array, padding and guard bits included. -/
def Obligations.PaddingAndGuardAreKept : Prop :=
  ∀ (s t : State) (i : Instr), s.ReadyInv → exec i s = .next t → (∀ n, i ≠ .create n) → i ≠ .destroy →
    (∀ a w, i ≠ .set64 a w) → ∀ j, s.bitCount.toNat ≤ j → t.buf.bit j = s.buf.bit j

/-- R47, R27: no command but DESTROY (after which no byte has a value: log 2) changes a byte above the guard byte, and none
changes the size of BUF. -/
def Obligations.UnreachableBytesAreKept : Prop :=
  ∀ (s t : State) (i : Instr), s.ReadyInv → exec i s = .next t →
    t.buf.size = s.buf.size ∧ (i ≠ .destroy → ∀ a, s.nb < a → t.buf.readByte a = s.buf.readByte a)

/-- R29: "No result of SIZE, GET, SET, REVERSE or ROTATE depends on" the padding and guard bits: two READY states that agree
on the array's bits answer alike and still agree. -/
def Obligations.ResultsDoNotDependOnPadding : Prop :=
  ∀ (s₁ s₂ : State) (i : Instr), s₁.ReadyInv → s₂.ReadyInv → s₁.bitCount = s₂.bitCount →
    s₁.responses = s₂.responses → (∀ j, j < s₁.bitCount.toNat → s₁.buf.bit j = s₂.buf.bit j) →
    (i = .size ∨ (∃ a, i = .get a) ∨ (∃ a v, i = .set a v) ∨ (∃ a b, i = .reverse a b) ∨ ∃ a b c, i = .rotate a b c) →
    ∃ t₁ t₂ : State, exec i s₁ = .next t₁ ∧ exec i s₂ = .next t₂ ∧ t₁.responses = t₂.responses ∧
      t₁.unit = t₂.unit ∧ t₁.bitCount = t₂.bitCount ∧ sameFaultRegisters t₁ t₂ ∧
      ∀ j, j < s₁.bitCount.toNat → t₁.buf.bit j = t₂.buf.bit j
end

