-- ==== Sys2Proof/Laws/State.lean ====
section
/-! SUPPORT. What each update of the state leaves in each field: one lemma per field per update. -/

namespace Sys2Proof.Laws

open Sys2Proof.Machine

section respond
variable (st : Status) (v : Word) (s : State)
@[simp] theorem respond_unit : (respond st v s).unit = s.unit := rfl
@[simp] theorem respond_bitCount : (respond st v s).bitCount = s.bitCount := rfl
@[simp] theorem respond_cause : (respond st v s).cause = s.cause := rfl
@[simp] theorem respond_fop : (respond st v s).fop = s.fop := rfl
@[simp] theorem respond_farg : (respond st v s).farg = s.farg := rfl
@[simp] theorem respond_buf : (respond st v s).buf = s.buf := rfl
@[simp] theorem respond_events : (respond st v s).events = s.events := rfl
@[simp] theorem respond_responses :
    (respond st v s).responses = s.responses ++ [⟨st, s.cause, s.fop, s.unit, v⟩] := rfl
@[simp] theorem respond_nb : (respond st v s).nb = s.nb := rfl
end respond

section raiseFault
variable (c : Cause) (cmd : Command) (s : State)
@[simp] theorem raiseFault_unit : (raiseFault c cmd s).unit = .faulted := rfl
@[simp] theorem raiseFault_bitCount : (raiseFault c cmd s).bitCount = s.bitCount := rfl
@[simp] theorem raiseFault_cause : (raiseFault c cmd s).cause = c := rfl
@[simp] theorem raiseFault_fop : (raiseFault c cmd s).fop = commandOp cmd := rfl
@[simp] theorem raiseFault_farg : (raiseFault c cmd s).farg = commandA cmd := rfl
@[simp] theorem raiseFault_buf : (raiseFault c cmd s).buf = s.buf := rfl
@[simp] theorem raiseFault_events : (raiseFault c cmd s).events = s.events := rfl
@[simp] theorem raiseFault_responses : (raiseFault c cmd s).responses =
    s.responses ++ [⟨.fault, c, commandOp cmd, .faulted, commandA cmd⟩] := rfl
end raiseFault

section respondFaulted
variable (s : State)
@[simp] theorem respondFaulted_unit : (respondFaulted s).unit = s.unit := rfl
@[simp] theorem respondFaulted_bitCount : (respondFaulted s).bitCount = s.bitCount := rfl
@[simp] theorem respondFaulted_cause : (respondFaulted s).cause = s.cause := rfl
@[simp] theorem respondFaulted_fop : (respondFaulted s).fop = s.fop := rfl
@[simp] theorem respondFaulted_farg : (respondFaulted s).farg = s.farg := rfl
@[simp] theorem respondFaulted_buf : (respondFaulted s).buf = s.buf := rfl
@[simp] theorem respondFaulted_events : (respondFaulted s).events = s.events := rfl
@[simp] theorem respondFaulted_responses : (respondFaulted s).responses =
    s.responses ++ [⟨.faulted, s.cause, s.fop, s.unit, s.farg⟩] := rfl
end respondFaulted

section resetUnit
variable (s : State)
@[simp] theorem resetUnit_unit : (resetUnit s).unit = .empty := rfl
@[simp] theorem resetUnit_bitCount : (resetUnit s).bitCount = 0 := rfl
@[simp] theorem resetUnit_cause : (resetUnit s).cause = .none := rfl
@[simp] theorem resetUnit_fop : (resetUnit s).fop = 0 := rfl
@[simp] theorem resetUnit_farg : (resetUnit s).farg = 0 := rfl
@[simp] theorem resetUnit_buf : (resetUnit s).buf = s.buf.forget := rfl
@[simp] theorem resetUnit_events : (resetUnit s).events = s.events := rfl
@[simp] theorem resetUnit_responses : (resetUnit s).responses = s.responses := rfl
end resetUnit

section presentCommand
variable (cmd : Command) (s : State)
@[simp] theorem presentCommand_unit : (presentCommand cmd s).unit = s.unit := rfl
@[simp] theorem presentCommand_bitCount : (presentCommand cmd s).bitCount = s.bitCount := rfl
@[simp] theorem presentCommand_cause : (presentCommand cmd s).cause = s.cause := rfl
@[simp] theorem presentCommand_fop : (presentCommand cmd s).fop = s.fop := rfl
@[simp] theorem presentCommand_farg : (presentCommand cmd s).farg = s.farg := rfl
@[simp] theorem presentCommand_buf : (presentCommand cmd s).buf = s.buf := rfl
@[simp] theorem presentCommand_events : (presentCommand cmd s).events = .command cmd :: s.events := rfl
@[simp] theorem presentCommand_responses : (presentCommand cmd s).responses = s.responses := rfl
end presentCommand

section resetWith
variable (n : Nat)
@[simp] theorem resetWith_unit : (State.resetWith n).unit = .empty := rfl
@[simp] theorem resetWith_bitCount : (State.resetWith n).bitCount = 0 := rfl
@[simp] theorem resetWith_cause : (State.resetWith n).cause = .none := rfl
@[simp] theorem resetWith_fop : (State.resetWith n).fop = 0 := rfl
@[simp] theorem resetWith_farg : (State.resetWith n).farg = 0 := rfl
@[simp] theorem resetWith_buf : (State.resetWith n).buf = ⟨n, []⟩ := rfl
@[simp] theorem resetWith_events : (State.resetWith n).events = [] := rfl
@[simp] theorem resetWith_responses : (State.resetWith n).responses = [] := rfl
end resetWith

@[simp] theorem forget_size (m : Memory) : m.forget.size = m.size := rfl
@[simp] theorem forget_cells (m : Memory) : m.forget.cells = [] := rfl

end Sys2Proof.Laws
end

