-- ==== Sys2Proof/Laws/Memory.lean ====
section
/-! SUPPORT. The laws of BUF: a read after a write, the canonical form, and what each operation over bytes and bits does,
said once. `Memory.byteAt` and `Memory.bitAt` are the bytes and bits of BUF as plain values; under `Memory.Covers` they are
what the operations read. -/

namespace Sys2Proof.Machine

/-- The bytes below `n` exist and hold values: what state READY gives with `n = NB + 1` (R36 (c), (f)). -/
def Memory.Covers (m : Memory) (n : Nat) : Prop := n ≤ m.size ∧ m.HoldsBelow n

/-- The value of byte `a` where it has one. -/
def Memory.byteAt (m : Memory) (a : Nat) : Byte := (lookupCell a m.cells).getD 0

/-- The value of bit index `i` where its byte has one (R42). -/
def Memory.bitAt (m : Memory) (i : Nat) : Bool := (m.byteAt (i / 8)).getLsbD (i % 8)

/-- What every operation over the bytes below `n` keeps: the size, the canonical form, that those bytes hold values, and
every byte from `n` up. -/
structure Memory.Evolves (n : Nat) (m m' : Memory) : Prop where
  size_eq : m'.size = m.size
  wf : m.wf = true → m'.wf = true
  covers : m'.Covers n
  above : ∀ a, n ≤ a → lookupCell a m'.cells = lookupCell a m.cells

end Sys2Proof.Machine

namespace Sys2Proof.Laws

open Sys2Proof.Machine

/-! ### Outcomes of the internal operations -/

theorem bind_eq_ok {α β : Type} {x : Except Fault α} {f : α → Except Fault β} {b : β} :
    (x >>= f) = .ok b ↔ ∃ a, x = .ok a ∧ f a = .ok b := by
  cases x <;> simp [bind, Except.bind]

@[simp] theorem ok_bind {α β : Type} (a : α) (f : α → Except Fault β) : (Except.ok a >>= f) = f a := rfl

@[simp] theorem error_bind {α β : Type} (e : Fault) (f : α → Except Fault β) :
    (Except.error e >>= f) = Except.error e := rfl

/-! ### The list of cells -/

@[simp] theorem lookupCell_nil (a : Nat) : lookupCell a [] = none := rfl

theorem lookupCell_insertCell_self (a : Nat) (v : Byte) (l : List Host.Cell) :
    lookupCell a (insertCell a v l) = some v := by
  induction l with
  | nil => simp [insertCell, lookupCell]
  | cons c rest ih =>
    obtain ⟨k, w⟩ := c
    unfold insertCell
    split
    · simp [lookupCell]
    · split
      · simp [lookupCell]
      · next h => simp [lookupCell, h, ih]

theorem lookupCell_insertCell_other {a b : Nat} (v : Byte) (l : List Host.Cell) (h : b ≠ a) :
    lookupCell b (insertCell a v l) = lookupCell b l := by
  have h' : a ≠ b := h.symm
  induction l with
  | nil => simp [insertCell, lookupCell, h', unlistedByte]
  | cons c rest ih =>
    obtain ⟨k, w⟩ := c
    unfold insertCell
    split
    · simp [lookupCell, h']
    · split
      · next hk => subst hk; simp [lookupCell, h']
      · simp [lookupCell, ih]

theorem risingWithin_insertCell {hi a : Nat} (v : Byte) (ha : a < hi) :
    ∀ (l : List Host.Cell) (lo : Nat), lo ≤ a → risingWithin hi lo l = true →
      risingWithin hi lo (insertCell a v l) = true
  | [], lo, hlo, _ => by simp [insertCell, risingWithin, hlo, ha]
  | (k, w) :: rest, lo, hlo, h => by
    simp only [risingWithin, Bool.and_eq_true, decide_eq_true_eq] at h
    obtain ⟨⟨h1, h2⟩, h3⟩ := h
    unfold insertCell
    split
    · next hk =>
      have : a + 1 ≤ k := hk
      simp [risingWithin, hlo, ha, this, h2, h3]
    · next hk =>
      split
      · next he => subst he; simp [risingWithin, h1, h2, h3]
      · next he =>
        have : k + 1 ≤ a := by omega
        simp [risingWithin, h1, h2, risingWithin_insertCell v ha rest (k + 1) this h3]

theorem lookupCell_below {hi : Nat} : ∀ (l : List Host.Cell) (lo a : Nat), risingWithin hi lo l = true → a < lo →
    lookupCell a l = none
  | [], _, _, _, _ => rfl
  | (k, w) :: rest, lo, a, h, ha => by
    simp only [risingWithin, Bool.and_eq_true, decide_eq_true_eq] at h
    have hk : k ≠ a := by omega
    simp [lookupCell, hk, lookupCell_below rest (k + 1) a h.2 (by omega)]

/-- Canonical lists that list the same bytes are the same list: equal memories are equal data. -/
theorem cells_ext {hi : Nat} : ∀ (l l' : List Host.Cell) (lo : Nat), risingWithin hi lo l = true →
    risingWithin hi lo l' = true → (∀ a, lookupCell a l = lookupCell a l') → l = l'
  | [], [], _, _, _, _ => rfl
  | [], (k, w) :: _, _, _, _, h => by simpa [lookupCell, unlistedByte] using h k
  | (k, w) :: _, [], _, _, _, h => by simpa [lookupCell, unlistedByte] using h k
  | (k, w) :: rest, (k', w') :: rest', lo, h1, h2, h => by
    simp only [risingWithin, Bool.and_eq_true, decide_eq_true_eq] at h1 h2
    have hk : k = k' := by
      rcases Nat.lt_trichotomy k k' with hlt | heq | hgt
      · have := h k
        have hne : k' ≠ k := by omega
        simp [lookupCell, hne, lookupCell_below rest' (k' + 1) k h2.2 (by omega)] at this
      · exact heq
      · have := h k'
        have hne : k ≠ k' := by omega
        simp [lookupCell, hne, lookupCell_below rest (k + 1) k' h1.2 (by omega)] at this
    subst hk
    have hw : w = w' := by simpa [lookupCell] using h k
    subst hw
    have hrest : rest = rest' := by
      refine cells_ext rest rest' (k + 1) h1.2 h2.2 fun a => ?_
      by_cases ha : k = a
      · subst ha
        rw [lookupCell_below rest (k + 1) k h1.2 (by omega), lookupCell_below rest' (k + 1) k h2.2 (by omega)]
      · simpa [lookupCell, ha] using h a
    rw [hrest]

/-- Equal memories are equal data: two memories in canonical form, of one size, with the same bytes listed. -/
theorem memory_ext {m m' : Memory} (h : m.wf = true) (h' : m'.wf = true) (hs : m'.size = m.size)
    (hl : ∀ a, lookupCell a m'.cells = lookupCell a m.cells) : m' = m := by
  obtain ⟨n, c⟩ := m
  obtain ⟨n', c'⟩ := m'
  simp only at hs
  subst hs
  have : c' = c := cells_ext c' c 0 h' h hl
  rw [this]

@[simp] theorem forget_wf (m : Memory) : m.forget.wf = true := rfl

/-! ### One byte -/

theorem readByte_eq_ok {m : Memory} {a : Nat} {v : Byte} :
    m.readByte a = .ok v ↔ a < m.size ∧ lookupCell a m.cells = some v := by
  unfold Memory.readByte
  split
  · next h => cases hl : lookupCell a m.cells <;> simp [h]
  · next h => simp [h]

theorem writeByte_eq_ok {m m' : Memory} {a : Nat} {v : Byte} :
    m.writeByte a v = .ok m' ↔ a < m.size ∧ m' = { m with cells := insertCell a v m.cells } := by
  unfold Memory.writeByte
  split
  · next h => simp [h, eq_comm]
  · next h => simp [h]

/-- A read after a write to the same place gives the value written. -/
theorem readByte_writeByte_self {m m' : Memory} {a : Nat} {v : Byte} (h : m.writeByte a v = .ok m') :
    m'.readByte a = .ok v := by
  obtain ⟨ha, rfl⟩ := writeByte_eq_ok.1 h
  exact readByte_eq_ok.2 ⟨ha, lookupCell_insertCell_self a v m.cells⟩

/-- A write leaves every other place alone. -/
theorem readByte_writeByte_other {m m' : Memory} {a b : Nat} {v : Byte} (h : m.writeByte a v = .ok m') (hb : b ≠ a) :
    m'.readByte b = m.readByte b := by
  obtain ⟨_, rfl⟩ := writeByte_eq_ok.1 h
  simp [Memory.readByte, lookupCell_insertCell_other v m.cells hb]

/-- A write keeps the canonical form. -/
theorem writeByte_wf {m m' : Memory} {a : Nat} {v : Byte} (h : m.writeByte a v = .ok m') (hm : m.wf = true) :
    m'.wf = true := by
  obtain ⟨ha, rfl⟩ := writeByte_eq_ok.1 h
  exact risingWithin_insertCell v ha m.cells 0 (Nat.zero_le a) hm

/-- No byte of a forgotten BUF has a value (R30). -/
theorem readByte_forget (m : Memory) (a : Nat) (v : Byte) : m.forget.readByte a ≠ .ok v := by
  rw [ne_eq, readByte_eq_ok]
  simp

theorem readByte_of_covers {m : Memory} {n a : Nat} (h : m.Covers n) (ha : a < n) : m.readByte a = .ok (m.byteAt a) := by
  have hs := h.2 a ha
  rw [readByte_eq_ok]
  refine ⟨lt_of_lt_of_le ha h.1, ?_⟩
  unfold Memory.byteAt
  obtain ⟨v, hv⟩ := Option.isSome_iff_exists.1 hs
  simp [hv]

theorem evolves_refl {m : Memory} {n : Nat} (h : m.Covers n) : Memory.Evolves n m m := ⟨rfl, id, h, fun _ _ => rfl⟩

theorem evolves_trans {n : Nat} {m₁ m₂ m₃ : Memory} (h : Memory.Evolves n m₁ m₂) (h' : Memory.Evolves n m₂ m₃) :
    Memory.Evolves n m₁ m₃ :=
  ⟨h'.size_eq.trans h.size_eq, fun w => h'.wf (h.wf w), h'.covers, fun a ha => (h'.above a ha).trans (h.above a ha)⟩

/-- What a write of one covered byte does, bit by bit. -/
theorem writeByte_spec {m : Memory} {n a : Nat} (v : Byte) (h : m.Covers n) (ha : a < n) :
    ∃ m', m.writeByte a v = .ok m' ∧ Memory.Evolves n m m' ∧
      ∀ j, m'.bitAt j = if j / 8 = a then v.getLsbD (j % 8) else m.bitAt j := by
  have hlt : a < m.size := lt_of_lt_of_le ha h.1
  refine ⟨{ m with cells := insertCell a v m.cells }, writeByte_eq_ok.2 ⟨hlt, rfl⟩, ?_, ?_⟩
  · refine ⟨rfl, fun w => writeByte_wf (writeByte_eq_ok.2 ⟨hlt, rfl⟩) w, ⟨h.1, fun b hb => ?_⟩, fun b hb => ?_⟩
    · by_cases hab : b = a
      · subst hab; simp [lookupCell_insertCell_self]
      · simpa [lookupCell_insertCell_other v m.cells hab] using h.2 b hb
    · exact lookupCell_insertCell_other v m.cells (by omega)
  · intro j
    unfold Memory.bitAt Memory.byteAt
    by_cases hj : j / 8 = a
    · subst hj; simp [lookupCell_insertCell_self]
    · simp [hj, lookupCell_insertCell_other v m.cells hj]

/-! ### One bit -/

theorem bit_of_covers {m : Memory} {n i : Nat} (h : m.Covers n) (hi : i / 8 < n) : m.bit i = .ok (m.bitAt i) := by
  simp [Memory.bit, byteIndex, bitOffset, Memory.bitAt, readByte_of_covers h hi]

/-- `putBit` changes the one bit (R80). -/
theorem putBit_getLsbD (x : Byte) {o : Nat} (v : Bool) (ho : o < 8) {k : Nat} (hk : k < 8) :
    (putBit x o v).getLsbD k = if k = o then v else x.getLsbD k := by
  unfold putBit
  interval_cases o <;> interval_cases k <;> cases v <;> simp

/-- What `setbit` does, bit by bit (R80). -/
theorem setbit_spec {m : Memory} {n i : Nat} (v : Bool) (h : m.Covers n) (hi : i / 8 < n) :
    ∃ m', m.setbit i v = .ok m' ∧ Memory.Evolves n m m' ∧ ∀ j, m'.bitAt j = if j = i then v else m.bitAt j := by
  obtain ⟨m', hw, he, hb⟩ := writeByte_spec (putBit (m.byteAt (i / 8)) (i % 8) v) h hi
  refine ⟨m', ?_, he, fun j => ?_⟩
  · simp [Memory.setbit, byteIndex, bitOffset, readByte_of_covers h hi, hw]
  · rw [hb j]
    by_cases hj : j / 8 = i / 8
    · rw [if_pos hj, putBit_getLsbD _ v (Nat.mod_lt _ (by decide)) (Nat.mod_lt _ (by decide))]
      by_cases hji : j = i
      · simp [hji]
      · have : j % 8 ≠ i % 8 := by omega
        simp [hji, this, Memory.bitAt, hj]
    · have : j ≠ i := fun e => hj (by rw [e])
      simp [hj, this]

/-! ### Several bytes -/

/-- What `memRead` reads, bit by bit (R9, R43). -/
theorem memRead_spec {m : Memory} {n : Nat} (h : m.Covers n) : ∀ (k addr : Nat), addr + k ≤ n →
    ∃ v, m.memRead addr k = .ok v ∧ v < 2 ^ (8 * k) ∧ ∀ j, j < 8 * k → v.testBit j = m.bitAt (8 * addr + j)
  | 0, _, _ => ⟨0, rfl, by simp, fun j hj => by omega⟩
  | k + 1, addr, hk => by
    obtain ⟨v, hv, hlt, hb⟩ := memRead_spec h k (addr + 1) (by omega)
    have hr := readByte_of_covers h (show addr < n by omega)
    have hlow := (m.byteAt addr).isLt
    refine ⟨(m.byteAt addr).toNat + 2 ^ 8 * v, by simp [Memory.memRead, hr, hv], ?_, fun j hj => ?_⟩
    · have : 2 ^ (8 * (k + 1)) = 2 ^ 8 * 2 ^ (8 * k) := by rw [← Nat.pow_add]; congr 1; omega
      omega
    · rw [Nat.add_comm, Nat.testBit_two_pow_mul_add v hlow]
      split
      · next hj8 =>
        have h1 : (8 * addr + j) / 8 = addr := by omega
        have h2 : (8 * addr + j) % 8 = j := by omega
        simp [Memory.bitAt, h1, h2, BitVec.getLsbD]
      · next hj8 =>
        rw [hb (j - 8) (by omega)]
        congr 1
        omega

/-- What `memWrite` writes, bit by bit (R9, R43). -/
theorem memWrite_spec {n : Nat} : ∀ (k addr v : Nat) {m : Memory}, m.Covers n → addr + k ≤ n →
    ∃ m', m.memWrite addr k v = .ok m' ∧ Memory.Evolves n m m' ∧
      ∀ j, m'.bitAt j = if 8 * addr ≤ j ∧ j < 8 * (addr + k) then v.testBit (j - 8 * addr) else m.bitAt j
  | 0, addr, v, m, h, _ => ⟨m, rfl, evolves_refl h, fun j => by rw [if_neg (by omega)]⟩
  | k + 1, addr, v, m, h, hk => by
    obtain ⟨m₁, hw, he, hb⟩ := writeByte_spec (BitVec.ofNat 8 v) h (show addr < n by omega)
    obtain ⟨m₂, hw₂, he₂, hb₂⟩ := memWrite_spec k (addr + 1) (v / 2 ^ 8) he.covers (by omega)
    refine ⟨m₂, by simp only [Memory.memWrite, hw, ok_bind, hw₂], evolves_trans he he₂, fun j => ?_⟩
    rw [hb₂ j, hb j]
    by_cases h1 : 8 * (addr + 1) ≤ j ∧ j < 8 * (addr + 1 + k)
    · rw [if_pos h1, if_pos (by omega), Nat.testBit_div_two_pow]
      congr 1
      omega
    · rw [if_neg h1]
      by_cases h2 : j / 8 = addr
      · have h3 : j % 8 = j - 8 * addr := by omega
        have h4 : j - 8 * addr < 8 := by omega
        rw [if_pos h2, if_pos (by omega), h3]
        rw [BitVec.getLsbD_ofNat]
        simp [h4]
      · rw [if_neg h2, if_neg (by omega)]

/-- What `zeroFill` leaves (R140): zeros below `n`, every other byte as it was. -/
theorem zeroFill_spec (m : Memory) : ∀ (n : Nat), n ≤ m.size →
    ∃ m', m.zeroFill n = .ok m' ∧ m'.size = m.size ∧ (m.wf = true → m'.wf = true) ∧
      ∀ a, lookupCell a m'.cells = if a < n then some 0 else lookupCell a m.cells
  | 0, _ => ⟨m, rfl, rfl, id, fun a => by simp⟩
  | n + 1, h => by
    obtain ⟨m₁, h₁, hs, hwf, hl⟩ := zeroFill_spec m n (by omega)
    have hw : m₁.writeByte n 0 = .ok { m₁ with cells := insertCell n 0 m₁.cells } :=
      writeByte_eq_ok.2 ⟨by omega, rfl⟩
    refine ⟨{ m₁ with cells := insertCell n 0 m₁.cells }, by simp only [Memory.zeroFill, h₁, ok_bind, hw], hs, fun w => writeByte_wf hw (hwf w), fun a => ?_⟩
    by_cases ha : a = n
    · subst ha; simp [lookupCell_insertCell_self]
    · have : a < n + 1 ↔ a < n := by omega
      show lookupCell a (insertCell n 0 m₁.cells) = _
      rw [lookupCell_insertCell_other 0 m₁.cells ha, hl a]
      simp only [this]

/-! ### From bits back to bytes -/

theorem byteAt_congr {m m' : Memory} {a : Nat} (h : ∀ k, k < 8 → m'.bitAt (8 * a + k) = m.bitAt (8 * a + k)) :
    m'.byteAt a = m.byteAt a := by
  refine BitVec.eq_of_getLsbD_eq fun k hk => ?_
  have h1 : (8 * a + k) / 8 = a := by omega
  have h2 : (8 * a + k) % 8 = k := by omega
  simpa [Memory.bitAt, h1, h2] using h k hk

/-- A byte none of whose bits changed reads as before. -/
theorem readByte_of_evolves {n a : Nat} {m m' : Memory} (hc : m.Covers n) (he : Memory.Evolves n m m')
    (h : ∀ k, k < 8 → m'.bitAt (8 * a + k) = m.bitAt (8 * a + k)) : m'.readByte a = m.readByte a := by
  by_cases ha : a < n
  · rw [readByte_of_covers he.covers ha, readByte_of_covers hc ha, byteAt_congr h]
  · simp [Memory.readByte, he.size_eq, he.above a (by omega)]

/-- A bit that did not change reads as before. -/
theorem bit_of_evolves {n i : Nat} {m m' : Memory} (hc : m.Covers n) (he : Memory.Evolves n m m')
    (h : m'.bitAt i = m.bitAt i) : m'.bit i = m.bit i := by
  by_cases hi : i / 8 < n
  · rw [bit_of_covers he.covers hi, bit_of_covers hc hi, h]
  · have hr : m'.readByte (i / 8) = m.readByte (i / 8) := by
      simp [Memory.readByte, he.size_eq, he.above (i / 8) (by omega)]
    simp [Memory.bit, byteIndex, hr]

/-- A memory that evolved with no bit changed is the same memory. -/
theorem eq_of_evolves {n : Nat} {m m' : Memory} (hc : m.Covers n) (hwf : m.wf = true) (he : Memory.Evolves n m m')
    (h : ∀ j, m'.bitAt j = m.bitAt j) : m' = m := by
  refine memory_ext hwf (he.wf hwf) he.size_eq fun a => ?_
  by_cases ha : a < n
  · have h1 := readByte_of_covers he.covers ha
    have h2 := readByte_of_covers hc ha
    rw [byteAt_congr (fun k _ => h (8 * a + k))] at h1
    rw [(readByte_eq_ok.1 h1).2, (readByte_eq_ok.1 h2).2]
  · exact he.above a (by omega)

/-- State READY covers the nominal buffer and the guard byte (R36 (c), (f)). -/
theorem covers_of_readyInv {s : State} (h : s.ReadyInv) : s.buf.Covers (s.nb + 1) :=
  ⟨(h.2.2.2.2.1 h.1).2, h.2.2.2.2.2.2.2.1 h.1⟩

end Sys2Proof.Laws
end

