-- ==== Sys2Proof/Laws/Wide.lean ====
section
/-! SUPPORT. What the wide accessor's and range reversal's internal functions do, bit by bit. -/

namespace Sys2Proof.Laws

open Sys2Proof.Machine

/-! ### The 72-bit span -/

theorem windowOf_getLsbD (lo : Word) (hi : Byte) {o : Nat} (ho : o < 8) {k : Nat} (hk : k < 64) :
    (windowOf lo hi o).getLsbD k = if o + k < 64 then lo.getLsbD (o + k) else hi.getLsbD (o + k - 64) := by
  unfold windowOf
  split
  · next h => subst h; simp [hk]
  · next h =>
    rw [BitVec.getLsbD_or, BitVec.getLsbD_ushiftRight, BitVec.getLsbD_shiftLeft]
    split
    · next h2 =>
      have : k < 64 - o := by omega
      simp [this]
    · next h2 =>
      have h3 : ¬ k < 64 - o := by omega
      have h4 : k - (64 - o) = o + k - 64 := by omega
      have h5 : o + k - 64 < 64 := by omega
      have h6 : lo.getLsbD (o + k) = false := BitVec.getLsbD_of_ge lo _ (by omega)
      have h7 : (hi.zeroExtend 64).getLsbD (o + k - 64) = hi.getLsbD (o + k - 64) := by
        simp [h5]
      rw [h6, h4, h7]
      simp [hk, h3]

theorem lowMask_eq : ∀ o, o < 8 → (1#64 <<< o) - 1#64 = BitVec.ofNat 64 (2 ^ o - 1) := by decide

theorem lowMask_getLsbD {o : Nat} (ho : o < 8) {k : Nat} (hk : k < 64) :
    ((1#64 <<< o) - 1#64).getLsbD k = decide (k < o) := by
  rw [lowMask_eq o ho, BitVec.getLsbD_ofNat]
  simp [hk, Nat.testBit_two_pow_sub_one]

theorem mergeLow_getLsbD (lo v : Word) {o : Nat} (ho : o < 8) {k : Nat} (hk : k < 64) :
    (mergeLow lo v o).getLsbD k = if k < o then lo.getLsbD k else v.getLsbD (k - o) := by
  unfold mergeLow
  split
  · next h => subst h; simp
  · next h =>
    rw [BitVec.getLsbD_or, BitVec.getLsbD_and, lowMask_getLsbD ho hk, BitVec.getLsbD_shiftLeft]
    by_cases hko : k < o <;> simp [hko, hk]

theorem mergeHigh_getLsbD (hi : Byte) (v : Word) {o : Nat} (ho : o < 8) {k : Nat} (hk : k < 8) :
    (mergeHigh hi v o).getLsbD k = if k < o then v.getLsbD (64 - o + k) else hi.getLsbD k := by
  unfold mergeHigh
  split
  · next h => subst h; simp
  · next h =>
    have hm : (0xFF#8 <<< o).getLsbD k = !decide (k < o) := by
      rw [BitVec.getLsbD_shiftLeft, show (0xFF#8) = BitVec.allOnes 8 from rfl, BitVec.getLsbD_allOnes]
      have : k - o < 8 := by omega
      simp [hk, this]
    have ht : ((v >>> (64 - o)).truncate 8).getLsbD k = v.getLsbD (64 - o + k) := by
      simp [hk]
    rw [BitVec.getLsbD_or, BitVec.getLsbD_and, hm, ht]
    by_cases hko : k < o
    · simp [hko]
    · have : v.getLsbD (64 - o + k) = false := BitVec.getLsbD_of_ge v _ (by omega)
      simp [hko, this]

/-! ### get64 and set64 -/

/-- What `get64` returns, bit by bit (R97). -/
theorem get64_spec {m : Memory} {n i : Nat} (h : m.Covers n) (hi : i / 8 + 8 < n) :
    ∃ w, m.get64 i = .ok w ∧ ∀ k, k < 64 → w.getLsbD k = m.bitAt (i + k) := by
  obtain ⟨lo, hlo, hlt, hb⟩ := memRead_spec h 8 (i / 8) (by omega)
  have hhi := readByte_of_covers h hi
  refine ⟨windowOf (BitVec.ofNat 64 lo) (m.byteAt (i / 8 + 8)) (i % 8), ?_, fun k hk => ?_⟩
  · simp only [Memory.get64, byteIndex, bitOffset, hlo, hhi, ok_bind]
  · rw [windowOf_getLsbD _ _ (Nat.mod_lt _ (by decide)) hk]
    split
    · next hc =>
      rw [BitVec.getLsbD_ofNat, hb _ (by omega)]
      have : 8 * (i / 8) + (i % 8 + k) = i + k := by omega
      simp [hc, this]
    · next hc =>
      have h1 : (i + k) / 8 = i / 8 + 8 := by omega
      have h2 : (i + k) % 8 = i % 8 + k - 64 := by omega
      rw [Memory.bitAt, h1, h2]

/-- What `set64` does, bit by bit (R98). -/
theorem set64_spec {m : Memory} {n i : Nat} (v : Word) (h : m.Covers n) (hi : i / 8 + 8 < n) :
    ∃ m', m.set64 i v = .ok m' ∧ Memory.Evolves n m m' ∧
      ∀ j, m'.bitAt j = if i ≤ j ∧ j < i + 64 then v.getLsbD (j - i) else m.bitAt j := by
  obtain ⟨lo, hlo, hlt, hb⟩ := memRead_spec h 8 (i / 8) (by omega)
  have hhi := readByte_of_covers h hi
  obtain ⟨m₁, hw₁, he₁, hb₁⟩ := memWrite_spec 8 (i / 8) (mergeLow (BitVec.ofNat 64 lo) v (i % 8)).toNat h
    (show i / 8 + 8 ≤ n by omega)
  obtain ⟨m₂, hw₂, he₂, hb₂⟩ := writeByte_spec (mergeHigh (m.byteAt (i / 8 + 8)) v (i % 8)) he₁.covers hi
  refine ⟨m₂, ?_, evolves_trans he₁ he₂, fun j => ?_⟩
  · simp only [Memory.set64, byteIndex, bitOffset, hlo, hhi, hw₁, hw₂, ok_bind]
  · have ho : i % 8 < 8 := Nat.mod_lt _ (by decide)
    rw [hb₂ j, hb₁ j]
    by_cases h9 : j / 8 = i / 8 + 8
    · rw [if_pos h9, mergeHigh_getLsbD _ v ho (Nat.mod_lt _ (by decide))]
      by_cases hw : j % 8 < i % 8
      · rw [if_pos hw, if_pos (by omega)]
        congr 1
        omega
      · rw [if_neg hw, if_neg (by omega), Memory.bitAt, h9]
    · rw [if_neg h9]
      by_cases h8 : 8 * (i / 8) ≤ j ∧ j < 8 * (i / 8 + 8)
      · rw [if_pos h8]
        change (mergeLow (BitVec.ofNat 64 lo) v (i % 8)).getLsbD (j - 8 * (i / 8)) = _
        rw [mergeLow_getLsbD _ v ho (by omega)]
        by_cases hw : j - 8 * (i / 8) < i % 8
        · rw [if_pos hw, if_neg (by omega), BitVec.getLsbD_ofNat, hb _ (by omega)]
          have h1 : 8 * (i / 8) + (j - 8 * (i / 8)) = j := by omega
          have h2 : j - 8 * (i / 8) < 64 := by omega
          simp [h1, h2]
        · rw [if_neg hw, if_pos (by omega)]
          congr 1
          omega
      · rw [if_neg h8, if_neg (by omega)]

/-! ### brev64 -/

theorem brev64_getLsbD (w : Word) {k : Nat} (hk : k < 64) : (brev64 w).getLsbD k = w.getLsbD (63 - k) := by
  unfold brev64
  rw [BitVec.getLsbD_reverse, BitVec.getMsbD_eq_getLsbD]
  simp [hk]

end Sys2Proof.Laws
end

