-- ==== Sys2Proof/Laws/Reversal.lean ====
section
/-! SUPPORT. What range reversal and the three reversals of a rotation do, bit by bit. -/

namespace Sys2Proof.Laws

open Sys2Proof.Machine

/-- One round of the bulk phase: the two windows are mirrored into each other (R108, R110). -/
theorem bulkRound_spec {m : Memory} {n left right : Nat} (h : m.Covers n) (hr : right / 8 < n)
    (hlr : left + 128 ≤ right) :
    ∃ l r m₁ m₂, m.get64 left = .ok l ∧ m.get64 (right - 64) = .ok r ∧ m.set64 (right - 64) (brev64 l) = .ok m₁ ∧
      m₁.set64 left (brev64 r) = .ok m₂ ∧ Memory.Evolves n m m₂ ∧
      ∀ j, m₂.bitAt j =
        if (left ≤ j ∧ j < left + 64) ∨ (right - 64 ≤ j ∧ j < right) then m.bitAt (left + right - 1 - j)
        else m.bitAt j := by
  obtain ⟨l, hl, hlb⟩ := get64_spec h (show left / 8 + 8 < n by omega)
  obtain ⟨r, hr', hrb⟩ := get64_spec h (show (right - 64) / 8 + 8 < n by omega)
  obtain ⟨m₁, hw₁, he₁, hb₁⟩ := set64_spec (brev64 l) h (show (right - 64) / 8 + 8 < n by omega)
  obtain ⟨m₂, hw₂, he₂, hb₂⟩ := set64_spec (brev64 r) he₁.covers (show left / 8 + 8 < n by omega)
  refine ⟨l, r, m₁, m₂, hl, hr', hw₁, hw₂, evolves_trans he₁ he₂, fun j => ?_⟩
  rw [hb₂ j, hb₁ j]
  by_cases h1 : left ≤ j ∧ j < left + 64
  · rw [if_pos h1, if_pos (Or.inl h1), brev64_getLsbD _ (by omega), hrb _ (by omega)]
    congr 1
    omega
  · rw [if_neg h1]
    by_cases h2 : right - 64 ≤ j ∧ j < right
    · rw [if_pos (by omega), if_pos (Or.inr h2), brev64_getLsbD _ (by omega), hlb _ (by omega)]
      congr 1
      omega
    · rw [if_neg (by omega), if_neg (by omega)]

/-- What the bulk phase does, bit by bit (R108, R110, R111). -/
theorem bulkReverse_spec {n : Nat} : ∀ (k left right : Nat) {m : Memory}, m.Covers n → right / 8 < n →
    left + 128 * k ≤ right →
    ∃ m', Memory.bulkReverse k left right m = .ok m' ∧ Memory.Evolves n m m' ∧
      ∀ j, m'.bitAt j =
        if (left ≤ j ∧ j < left + 64 * k) ∨ (right - 64 * k ≤ j ∧ j < right) then m.bitAt (left + right - 1 - j)
        else m.bitAt j
  | 0, left, right, m, h, _, _ => ⟨m, rfl, evolves_refl h, fun j => by rw [if_neg (by omega)]⟩
  | k + 1, left, right, m, h, hr, hlr => by
    obtain ⟨l, r, m₁, m₂, h1, h2, h3, h4, he, hb⟩ := bulkRound_spec h hr (show left + 128 ≤ right by omega)
    obtain ⟨m', hm', he', hb'⟩ := bulkReverse_spec k (left + 64) (right - 64) he.covers (by omega) (by omega)
    refine ⟨m', ?_, evolves_trans he he', fun j => ?_⟩
    · simp only [Memory.bulkReverse, Config.wordBits, h1, h2, h3, h4, ok_bind, hm']
    · rw [hb' j]
      by_cases hin : (left + 64 ≤ j ∧ j < left + 64 + 64 * k) ∨ (right - 64 - 64 * k ≤ j ∧ j < right - 64)
      · rw [if_pos hin, if_pos (by omega), hb, if_neg (by omega)]
        congr 1
        omega
      · rw [if_neg hin, hb j]
        by_cases hout : (left ≤ j ∧ j < left + 64) ∨ (right - 64 ≤ j ∧ j < right)
        · rw [if_pos hout, if_pos (by omega)]
        · rw [if_neg hout, if_neg (by omega)]

/-- One swap of the tail phase (R109). -/
theorem swap_spec {m : Memory} {n left right : Nat} (h : m.Covers n) (hr : (right - 1) / 8 < n)
    (hlr : left + 2 ≤ right) :
    ∃ a c m₁ m₂, m.bit left = .ok a ∧ m.bit (right - 1) = .ok c ∧ m.setbit left c = .ok m₁ ∧
      m₁.setbit (right - 1) a = .ok m₂ ∧ Memory.Evolves n m m₂ ∧
      ∀ j, m₂.bitAt j = if j = left ∨ j = right - 1 then m.bitAt (left + right - 1 - j) else m.bitAt j := by
  obtain ⟨m₁, hw₁, he₁, hb₁⟩ := setbit_spec (m.bitAt (right - 1)) h (show left / 8 < n by omega)
  obtain ⟨m₂, hw₂, he₂, hb₂⟩ := setbit_spec (m.bitAt left) he₁.covers hr
  refine ⟨_, _, m₁, m₂, bit_of_covers h (by omega), bit_of_covers h hr, hw₁, hw₂, evolves_trans he₁ he₂, fun j => ?_⟩
  rw [hb₂ j, hb₁ j]
  by_cases h1 : j = right - 1
  · rw [if_pos h1, if_pos (Or.inr h1)]
    congr 1
    omega
  · rw [if_neg h1]
    by_cases h2 : j = left
    · rw [if_pos h2, if_pos (Or.inl h2)]
      congr 1
      omega
    · rw [if_neg h2, if_neg (by omega)]

/-- What the tail phase does, bit by bit (R109, R110, R111). -/
theorem tailReverse_spec {n : Nat} : ∀ (k left right : Nat) {m : Memory}, m.Covers n → (right - 1) / 8 < n →
    left + 2 * k ≤ right →
    ∃ m', Memory.tailReverse k left right m = .ok m' ∧ Memory.Evolves n m m' ∧
      ∀ j, m'.bitAt j =
        if (left ≤ j ∧ j < left + k) ∨ (right - k ≤ j ∧ j < right) then m.bitAt (left + right - 1 - j)
        else m.bitAt j
  | 0, left, right, m, h, _, _ => ⟨m, rfl, evolves_refl h, fun j => by rw [if_neg (by omega)]⟩
  | k + 1, left, right, m, h, hr, hlr => by
    obtain ⟨a, c, m₁, m₂, h1, h2, h3, h4, he, hb⟩ := swap_spec h hr (show left + 2 ≤ right by omega)
    obtain ⟨m', hm', he', hb'⟩ := tailReverse_spec k (left + 1) (right - 1) he.covers (by omega) (by omega)
    refine ⟨m', ?_, evolves_trans he he', fun j => ?_⟩
    · simp only [Memory.tailReverse, h1, h2, h3, h4, ok_bind, hm']
    · rw [hb' j]
      by_cases hin : (left + 1 ≤ j ∧ j < left + 1 + k) ∨ (right - 1 - k ≤ j ∧ j < right - 1)
      · rw [if_pos hin, if_pos (by omega), hb, if_neg (by omega)]
        congr 1
        omega
      · rw [if_neg hin, hb j]
        by_cases hout : j = left ∨ j = right - 1
        · rw [if_pos hout, if_pos (by omega)]
        · rw [if_neg hout, if_neg (by omega)]

/-- What `reverse` does, bit by bit, and that it never stops on a range whose bytes hold values (R110, R111). -/
theorem reverse_spec {m : Memory} {n start length : Nat} (h : m.Covers n) (hr : (start + length) / 8 < n) :
    ∃ m', m.reverse start length = .ok m' ∧ Memory.Evolves n m m' ∧
      ∀ j, m'.bitAt j =
        if start ≤ j ∧ j < start + length then m.bitAt (start + (start + length) - 1 - j) else m.bitAt j := by
  have hd : 128 * (length / 128) + length % 128 = length := Nat.div_add_mod length 128
  obtain ⟨m₁, hm₁, he₁, hb₁⟩ := bulkReverse_spec (length / 128) start (start + length) h hr (by omega)
  obtain ⟨m₂, hm₂, he₂, hb₂⟩ := tailReverse_spec (length % 128 / 2) (start + 64 * (length / 128))
    (start + length - 64 * (length / 128)) he₁.covers (by omega) (by omega)
  refine ⟨m₂, ?_, evolves_trans he₁ he₂, fun j => ?_⟩
  · simp only [Memory.reverse, Config.bulkMin, Config.wordBits, hm₁, ok_bind, hm₂]
  · rw [hb₂ j]
    split
    · next ht =>
      rw [hb₁, if_neg (by omega), if_pos (by omega)]
      congr 1
      omega
    · next ht =>
      rw [hb₁ j]
      by_cases hin : (start ≤ j ∧ j < start + 64 * (length / 128)) ∨
          (start + length - 64 * (length / 128) ≤ j ∧ j < start + length)
      · rw [if_pos hin, if_pos (by omega)]
      · rw [if_neg hin]
        by_cases hmid : start ≤ j ∧ j < start + length
        · rw [if_pos hmid]
          congr 1
          omega
        · rw [if_neg hmid]

/-- What the three reversals do, bit by bit: the bit at `offset + k` goes to `offset + (k + n)`, less the length when that
passes the end (R129, R130). -/
theorem threeReversals_spec {m : Memory} {N offset length n : Nat} (h : m.Covers N)
    (hr : (offset + length) / 8 < N) (hn : n < length) :
    ∃ m', m.threeReversals offset length n = .ok m' ∧ Memory.Evolves N m m' ∧
      ∀ j, m'.bitAt j =
        if offset ≤ j ∧ j < offset + length then
          if j < offset + n then m.bitAt (j + length - n) else m.bitAt (j - n)
        else m.bitAt j := by
  obtain ⟨m₁, hm₁, he₁, hb₁⟩ := reverse_spec h (show (offset + (length - n)) / 8 < N by omega)
  obtain ⟨m₂, hm₂, he₂, hb₂⟩ := reverse_spec he₁.covers (show (offset + (length - n) + n) / 8 < N by omega)
  obtain ⟨m₃, hm₃, he₃, hb₃⟩ := reverse_spec he₂.covers hr
  refine ⟨m₃, ?_, evolves_trans (evolves_trans he₁ he₂) he₃, fun j => ?_⟩
  · simp only [Memory.threeReversals, hm₁, hm₂, hm₃, ok_bind]
  · rw [hb₃ j]
    by_cases hin : offset ≤ j ∧ j < offset + length
    · rw [if_pos hin, if_pos hin, hb₂]
      by_cases hlow : j < offset + n
      · rw [if_pos hlow, if_pos (by omega), hb₁, if_neg (by omega)]
        congr 1
        omega
      · rw [if_neg hlow, if_neg (by omega), hb₁, if_pos (by omega)]
        congr 1
        omega
    · rw [if_neg hin, if_neg hin, hb₂, if_neg (by omega), hb₁, if_neg (by omega)]

end Sys2Proof.Laws
end

