-- ==== Sys2Proof/Laws/Outcome.lean ====
section
/-! SUPPORT. What the common checks and the step can answer: one inversion lemma for each (R160). -/

namespace Sys2Proof.Laws

open Sys2Proof.Machine

theorem indexInRange_eq_true {s : State} {i : Nat} : s.indexInRange i = true ↔ i < s.bitCount.toNat := decide_eq_true_iff

theorem wideInBound_eq_true {s : State} {i : Nat} : s.wideInBound i = true ↔ byteIndex i + 8 ≤ s.nb := decide_eq_true_iff

theorem rangeInBound_eq_true {s : State} {start length : Nat} :
    s.rangeInBound start length = true ↔ start + length ≤ s.bitCount.toNat := decide_eq_true_iff

theorem finish_eq_next {x : Except Fault State} {t : State} : finish x = .next t ↔ x = .ok t := by
  cases x <;> simp [finish]

@[simp] theorem finish_ok (t : State) : finish (.ok t) = .next t := rfl

/-- Everything `whenNotFaulted` can answer with a next state (R160 step 1). -/
theorem whenNotFaulted_eq_next {s t : State} {rule : Except Fault State} :
    whenNotFaulted s rule = .next t ↔
      (s.unit = .faulted ∧ t = respondFaulted s) ∨ (s.unit ≠ .faulted ∧ rule = .ok t) := by
  unfold whenNotFaulted
  cases h : s.unit <;> simp [finish_eq_next, eq_comm (a := t)]

/-- Everything `whenReady` can answer with a next state (R160 steps 1 and 3). -/
theorem whenReady_eq_next {i : Instr} {s t : State} {rule : Except Fault State} :
    whenReady i s rule = .next t ↔
      (s.unit = .faulted ∧ t = respondFaulted s) ∨ (s.unit = .empty ∧ t = raiseFault .noArray (encode i) s) ∨
        (s.unit = .ready ∧ rule = .ok t) := by
  unfold whenReady
  cases h : s.unit <;> simp [finish_eq_next, eq_comm (a := t)]

theorem whenNotFaulted_of_not_faulted {s : State} {rule : Except Fault State} (h : s.unit ≠ .faulted) :
    whenNotFaulted s rule = finish rule := by
  unfold whenNotFaulted
  cases hs : s.unit <;> simp_all

theorem whenReady_of_ready {i : Instr} {s : State} {rule : Except Fault State} (h : s.unit = .ready) :
    whenReady i s rule = finish rule := by
  simp [whenReady, h]

theorem whenReady_of_empty {i : Instr} {s : State} {rule : Except Fault State} (h : s.unit = .empty) :
    whenReady i s rule = .next (raiseFault .noArray (encode i) s) := by
  simp [whenReady, h]

/-- A command executed in state FAULTED (R159). -/
theorem exec_of_faulted (i : Instr) {s : State} (h : s.unit = .faulted) : exec i s = .next (respondFaulted s) := by
  cases i <;>
    simp [exec, execCreate, execDestroy, execSize, execGet, execSet, execGet64, execSet64, execReverse, execRotate,
      execStatus, whenReady, whenNotFaulted, h]

/-- Everything `runCommand` can answer with a next state (R160). -/
theorem runCommand_eq_next {cmd : Command} {s t : State} :
    runCommand cmd s = .next t ↔
      (s.unit = .faulted ∧ t = respondFaulted s) ∨
        (s.unit ≠ .faulted ∧ ∃ e, decode cmd = .error e ∧ t = raiseFault .illegalCmd cmd s) ∨
          (s.unit ≠ .faulted ∧ ∃ i, decode cmd = .ok i ∧ exec i s = .next t) := by
  unfold runCommand
  cases h : s.unit <;> cases hd : decode cmd <;> simp [eq_comm (a := t)]

/-- Everything `step` can answer with a next state. -/
theorem step_eq_next {s t : State} :
    step s = .next t ↔
      (s.events = [] ∧ t = s) ∨
        (∃ cmd rest, s.events = .command cmd :: rest ∧ runCommand cmd { s with events := rest } = .next t) ∨
          (∃ rest, s.events = .reset :: rest ∧ t = resetUnit { s with events := rest }) ∨
            (∃ cmd rest, s.events = .cutCommand cmd :: rest ∧ t = resetUnit { s with events := rest }) := by
  unfold step takeEvent
  rcases h : s.events with _ | ⟨e, rest⟩
  · simp [eq_comm (a := t)]
  · cases e <;> simp [eq_comm (a := t), and_assoc]

end Sys2Proof.Laws
end

