-- ==== Sys2Proof/Laws/Encoding.lean ====
section
/-! SUPPORT. The fields of an assembled command, and the patterns' bits as fields. -/

namespace Sys2Proof.Laws

open Sys2Proof.Machine

/-- Every bit of an assembled command. -/
theorem commandOf_getLsbD (c b a : Word) (op : Byte) (k : Nat) :
    (commandOf c b a op).getLsbD k =
      if k < 8 then op.getLsbD k
      else if k < 64 then false
      else if k < 128 then a.getLsbD (k - 64)
      else if k < 192 then b.getLsbD (k - 128)
      else c.getLsbD (k - 192) := by
  unfold commandOf
  simp only [BitVec.getLsbD_append]
  by_cases h1 : k < 8
  · simp [h1, show k < 64 by omega]
  · by_cases h2 : k < 64
    · simp [h1, h2]
    · by_cases h3 : k < 128
      · simp only [h1, h2, h3, if_false, if_true, show k - (56 + 8) < 64 by omega]
      · by_cases h4 : k < 192
        · simp only [h1, h2, h3, h4, if_false, if_true, show ¬ k - (56 + 8) < 64 by omega,
            show k - (56 + 8) - 64 < 64 by omega]
          rw [show k - (56 + 8) - 64 = k - 128 by omega]
        · simp only [h1, h2, h3, h4, if_false, show ¬ k - (56 + 8) < 64 by omega,
            show ¬ k - (56 + 8) - 64 < 64 by omega]
          rw [show k - (56 + 8) - 64 - 64 = k - 192 by omega]

@[simp] theorem commandOp_commandOf (c b a : Word) (op : Byte) : commandOp (commandOf c b a op) = op := by
  refine BitVec.eq_of_getLsbD_eq fun k hk => ?_
  rw [commandOp, BitVec.getLsbD_extractLsb', commandOf_getLsbD]
  simp [hk]

@[simp] theorem commandRsv_commandOf (c b a : Word) (op : Byte) : commandRsv (commandOf c b a op) = 0 := by
  refine BitVec.eq_of_getLsbD_eq fun k hk => ?_
  rw [commandRsv, BitVec.getLsbD_extractLsb', commandOf_getLsbD]
  simp [hk, show ¬ 8 + k < 8 by omega, show 8 + k < 64 by omega]

@[simp] theorem commandA_commandOf (c b a : Word) (op : Byte) : commandA (commandOf c b a op) = a := by
  refine BitVec.eq_of_getLsbD_eq fun k hk => ?_
  rw [commandA, BitVec.getLsbD_extractLsb', commandOf_getLsbD]
  simp [hk, show ¬ 64 + k < 8 by omega, show ¬ 64 + k < 64 by omega, show 64 + k < 128 by omega]

@[simp] theorem commandB_commandOf (c b a : Word) (op : Byte) : commandB (commandOf c b a op) = b := by
  refine BitVec.eq_of_getLsbD_eq fun k hk => ?_
  rw [commandB, BitVec.getLsbD_extractLsb', commandOf_getLsbD]
  simp [hk, show ¬ 128 + k < 8 by omega, show ¬ 128 + k < 64 by omega, show ¬ 128 + k < 128 by omega,
    show 128 + k < 192 by omega]

@[simp] theorem commandC_commandOf (c b a : Word) (op : Byte) : commandC (commandOf c b a op) = c := by
  refine BitVec.eq_of_getLsbD_eq fun k hk => ?_
  rw [commandC, BitVec.getLsbD_extractLsb', commandOf_getLsbD]
  simp [hk, show ¬ 192 + k < 8 by omega, show ¬ 192 + k < 64 by omega, show ¬ 192 + k < 128 by omega,
    show ¬ 192 + k < 192 by omega]

/-- A command whose reserved bits are 0 is assembled from its fields. -/
theorem commandOf_fields {cmd : Command} (h : commandRsv cmd = 0) :
    commandOf (commandC cmd) (commandB cmd) (commandA cmd) (commandOp cmd) = cmd := by
  refine BitVec.eq_of_getLsbD_eq fun k hk => ?_
  rw [commandOf_getLsbD]
  by_cases h1 : k < 8
  · rw [if_pos h1, commandOp, BitVec.getLsbD_extractLsb']
    simp [h1]
  · rw [if_neg h1]
    by_cases h2 : k < 64
    · have h' := congrArg (fun v : BitVec 56 => v.getLsbD (k - 8)) h
      simp only [commandRsv] at h'
      rw [BitVec.getLsbD_extractLsb', show 8 + (k - 8) = k by omega] at h'
      rw [if_pos h2]
      simpa [show k - 8 < 56 by omega] using h'.symm
    · rw [if_neg h2]
      by_cases h3 : k < 128
      · rw [if_pos h3, commandA, BitVec.getLsbD_extractLsb', show 64 + (k - 64) = k by omega]
        simp [show k - 64 < 64 by omega]
      · rw [if_neg h3]
        by_cases h4 : k < 192
        · rw [if_pos h4, commandB, BitVec.getLsbD_extractLsb', show 128 + (k - 128) = k by omega]
          simp [show k - 128 < 64 by omega]
        · rw [if_neg h4, commandC, BitVec.getLsbD_extractLsb', show 192 + (k - 192) = k by omega]
          simp [show k - 192 < 64 by omega]

@[simp] theorem commandOp_encode (i : Instr) : commandOp (encode i) = opcodeOf i := commandOp_commandOf _ _ _ _
@[simp] theorem commandRsv_encode (i : Instr) : commandRsv (encode i) = 0 := commandRsv_commandOf _ _ _ _
@[simp] theorem commandA_encode (i : Instr) : commandA (encode i) = fieldA i := commandA_commandOf _ _ _ _
@[simp] theorem commandB_encode (i : Instr) : commandB (encode i) = fieldB i := commandB_commandOf _ _ _ _
@[simp] theorem commandC_encode (i : Instr) : commandC (encode i) = fieldC i := commandC_commandOf _ _ _ _

/-- Decoding an assembled command is the table lookup on its fields (R70 steps 2 to 5). -/
theorem decode_commandOf (c b a : Word) (op : Byte) : decode (commandOf c b a op) = decodeFields op a b c := by
  unfold decode
  rw [commandRsv_commandOf, if_pos rfl, commandOp_commandOf, commandA_commandOf, commandB_commandOf, commandC_commandOf]

end Sys2Proof.Laws
end

