-- ==== Sys2Proof/Laws/Effect.lean ====
section
/-! SUPPORT. Everything a command can do (R160): one inversion lemma for `exec`, from which the statements about all commands
follow without unfolding a meaning again. -/

namespace Sys2Proof.Laws

open Sys2Proof.Machine

/-- The causes a command's own checks can raise (R156, R162): which command each is tied to. -/
def causeFits (i : Instr) : Cause → Prop
  | .none => False
  | .illegalCmd => False
  | .noArray => needsArray i = true
  | .indexRange => (∃ a, i = .get a) ∨ ∃ a v, i = .set a v
  | .wideBound => (∃ a, i = .get64 a) ∨ ∃ a w, i = .set64 a w
  | .rangeBound => (∃ a b, i = .reverse a b) ∨ ∃ a b r, i = .rotate a b r
  | .zeroDivisor => False

/-- `Effect s i t`: the command `i` takes `s` to `t`. -/
inductive Effect (s : State) : Instr → State → Prop
  | ignored (i : Instr) (h : s.unit = .faulted) : Effect s i (respondFaulted s)
  | raised (i : Instr) (c : Cause) (h : s.unit ≠ .faulted) (hc : causeFits i c) : Effect s i (raiseFault c (encode i) s)
  | answered (i : Instr) (v : Word) (h : s.unit ≠ .faulted) (hc : ∀ n, i ≠ .create n) (hd : i ≠ .destroy)
      (hw : (∀ a v, i ≠ .set a v) ∧ ∀ a w, i ≠ .set64 a w) (ha : needsArray i = true → s.unit = .ready) : Effect s i (respond .ok v s)
  | noHandle (n : Nat) (h : s.unit ≠ .faulted) (hn : s.unit = .ready ∨ doesNotFit s.buf.size n = true) :
      Effect s (.create n) (respond .noHandle 0 s)
  | created (n : Nat) (m : Memory) (h : s.unit = .empty) (hn : doesNotFit s.buf.size n = false)
      (hm : s.buf.zeroFill (byteCount n + 1) = .ok m) :
      Effect s (.create n) (respond .ok 0 { s with bitCount := BitVec.ofNat 64 n, buf := m, unit := .ready })
  | destroyed (h : s.unit ≠ .faulted) :
      Effect s .destroy (respond .ok 0 { s with bitCount := 0, unit := .empty, buf := s.buf.forget })
  | wroteBit (a : Nat) (v : Bool) (m : Memory) (h : s.unit = .ready) (hr : a < s.bitCount.toNat)
      (hm : s.buf.setbit a v = .ok m) : Effect s (.set a v) (respond .ok 0 { s with buf := m })
  | wroteWindow (a : Nat) (w : Word) (m : Memory) (h : s.unit = .ready) (hr : a / 8 + 8 ≤ s.nb)
      (hm : s.buf.set64 a w = .ok m) : Effect s (.set64 a w) (respond .ok 0 { s with buf := m })
  | reversed (a b : Nat) (m : Memory) (h : s.unit = .ready) (hb : 0 < b) (hr : a + b ≤ s.bitCount.toNat)
      (hm : s.buf.reverse a b = .ok m) : Effect s (.reverse a b) (respond .ok 0 { s with buf := m })
  | rotated (a b n : Nat) (r : Int) (m : Memory) (h : s.unit = .ready) (hb : 0 < b) (hr : a + b ≤ s.bitCount.toNat)
      (hn : n = (r % (b : Int)).toNat) (hn0 : n ≠ 0) (hm : s.buf.threeReversals a b n = .ok m) :
      Effect s (.rotate a b r) (respond .ok 0 { s with buf := m })

/-- Every next state of a command is one of the effects. -/
theorem exec_effect {i : Instr} {s t : State} (h : exec i s = .next t) : Effect s i t := by
  have hne : s.unit = .ready → s.unit ≠ .faulted := by intro h; simp [h]
  have hne' : s.unit = .empty → s.unit ≠ .faulted := by intro h; simp [h]
  cases i with
  | create n =>
    simp only [exec, execCreate, whenNotFaulted_eq_next] at h
    rcases h with ⟨hf, rfl⟩ | ⟨hf, h⟩
    · exact .ignored _ hf
    · split at h
      · next hu => cases h; exact .noHandle _ hf (Or.inl hu)
      · next hu =>
        split at h
        · next hn => cases h; exact .noHandle _ hf (Or.inr hn)
        · next hn =>
          obtain ⟨m, hm, h⟩ := bind_eq_ok.1 h
          cases h
          refine .created n m ?_ (by simpa using hn) hm
          cases hs : s.unit <;> simp_all
  | destroy =>
    simp only [exec, execDestroy, whenNotFaulted_eq_next] at h
    rcases h with ⟨hf, rfl⟩ | ⟨hf, h⟩
    · exact .ignored _ hf
    · cases h; exact .destroyed hf
  | size =>
    simp only [exec, execSize, whenReady_eq_next] at h
    rcases h with ⟨hf, rfl⟩ | ⟨hf, rfl⟩ | ⟨hf, h⟩
    · exact .ignored _ hf
    · exact .raised _ _ (hne' hf) rfl
    · cases h; exact .answered _ _ (hne hf) (by simp) (by simp) (by simp) (fun _ => hf)
  | get a =>
    simp only [exec, execGet, whenReady_eq_next] at h
    rcases h with ⟨hf, rfl⟩ | ⟨hf, rfl⟩ | ⟨hf, h⟩
    · exact .ignored _ hf
    · exact .raised _ _ (hne' hf) rfl
    · split at h
      · obtain ⟨v, _, h⟩ := bind_eq_ok.1 h
        cases h; exact .answered _ _ (hne hf) (by simp) (by simp) (by simp) (fun _ => hf)
      · cases h; exact .raised _ _ (hne hf) (Or.inl ⟨a, rfl⟩)
  | set a v =>
    simp only [exec, execSet, whenReady_eq_next] at h
    rcases h with ⟨hf, rfl⟩ | ⟨hf, rfl⟩ | ⟨hf, h⟩
    · exact .ignored _ hf
    · exact .raised _ _ (hne' hf) rfl
    · split at h
      · next hr =>
        obtain ⟨m, hm, h⟩ := bind_eq_ok.1 h
        cases h; exact .wroteBit a v m hf (indexInRange_eq_true.1 hr) hm
      · cases h; exact .raised _ _ (hne hf) (Or.inr ⟨a, v, rfl⟩)
  | get64 a =>
    simp only [exec, execGet64, whenReady_eq_next] at h
    rcases h with ⟨hf, rfl⟩ | ⟨hf, rfl⟩ | ⟨hf, h⟩
    · exact .ignored _ hf
    · exact .raised _ _ (hne' hf) rfl
    · split at h
      · obtain ⟨v, _, h⟩ := bind_eq_ok.1 h
        cases h; exact .answered _ _ (hne hf) (by simp) (by simp) (by simp) (fun _ => hf)
      · cases h; exact .raised _ _ (hne hf) (Or.inl ⟨a, rfl⟩)
  | set64 a w =>
    simp only [exec, execSet64, whenReady_eq_next] at h
    rcases h with ⟨hf, rfl⟩ | ⟨hf, rfl⟩ | ⟨hf, h⟩
    · exact .ignored _ hf
    · exact .raised _ _ (hne' hf) rfl
    · split at h
      · next hr =>
        obtain ⟨m, hm, h⟩ := bind_eq_ok.1 h
        cases h; exact .wroteWindow a w m hf (wideInBound_eq_true.1 hr) hm
      · cases h; exact .raised _ _ (hne hf) (Or.inr ⟨a, w, rfl⟩)
  | reverse a b =>
    simp only [exec, execReverse, whenReady_eq_next] at h
    rcases h with ⟨hf, rfl⟩ | ⟨hf, rfl⟩ | ⟨hf, h⟩
    · exact .ignored _ hf
    · exact .raised _ _ (hne' hf) rfl
    · split at h
      · cases h; exact .answered _ _ (hne hf) (by simp) (by simp) (by simp) (fun _ => hf)
      · next hb =>
        split at h
        · next hr =>
          obtain ⟨m, hm, h⟩ := bind_eq_ok.1 h
          cases h; exact .reversed a b m hf (by omega) (rangeInBound_eq_true.1 hr) hm
        · cases h; exact .raised _ _ (hne hf) (Or.inl ⟨a, b, rfl⟩)
  | rotate a b r =>
    simp only [exec, execRotate, whenReady_eq_next] at h
    rcases h with ⟨hf, rfl⟩ | ⟨hf, rfl⟩ | ⟨hf, h⟩
    · exact .ignored _ hf
    · exact .raised _ _ (hne' hf) rfl
    · split at h
      · cases h; exact .answered _ _ (hne hf) (by simp) (by simp) (by simp) (fun _ => hf)
      · next hb =>
        split at h
        · next hr =>
          simp only [floorMod, hb, if_false] at h
          split at h
          · cases h; exact .answered _ _ (hne hf) (by simp) (by simp) (by simp) (fun _ => hf)
          · next hn0 =>
            obtain ⟨m, hm, h⟩ := bind_eq_ok.1 h
            cases h
            exact .rotated a b _ r m hf (by omega) (rangeInBound_eq_true.1 hr) rfl hn0 hm
        · cases h; exact .raised _ _ (hne hf) (Or.inr ⟨a, b, r, rfl⟩)
  | status =>
    simp only [exec, execStatus, whenNotFaulted_eq_next] at h
    rcases h with ⟨hf, rfl⟩ | ⟨hf, h⟩
    · exact .ignored _ hf
    · cases h; exact .answered _ _ hf (by simp) (by simp) (by simp) (fun h => by simp [needsArray] at h)

end Sys2Proof.Laws
end

