-- ==== Sys2Proof/Laws/PerInstr.lean ====
section
/-! SUPPORT. The families of LAWS.json: a statement about every command as syntax, one lemma per constructor. -/

namespace Sys2Proof.Laws

/-- The header of an encoded command is `rsv` 0 and the opcode of R62, and the four fields are the command's own (R60). -/
def EncodedFields.Statement (i : Instr) : Prop :=
  commandOp (encode i) = opcodeOf i ∧ commandRsv (encode i) = 0 ∧ commandA (encode i) = fieldA i ∧
    commandB (encode i) = fieldB i ∧ commandC (encode i) = fieldC i

theorem EncodedFields.create (bitCount : Nat) : EncodedFields.Statement (.create bitCount) := by
  simp [EncodedFields.Statement]

theorem EncodedFields.destroy : EncodedFields.Statement .destroy := by
  simp [EncodedFields.Statement]

theorem EncodedFields.size : EncodedFields.Statement .size := by
  simp [EncodedFields.Statement]

theorem EncodedFields.get (index : Nat) : EncodedFields.Statement (.get index) := by
  simp [EncodedFields.Statement]

theorem EncodedFields.set (index : Nat) (value : Bool) : EncodedFields.Statement (.set index value) := by
  simp [EncodedFields.Statement]

theorem EncodedFields.get64 (bitIndex : Nat) : EncodedFields.Statement (.get64 bitIndex) := by
  simp [EncodedFields.Statement]

theorem EncodedFields.set64 (bitIndex : Nat) (value : Word) : EncodedFields.Statement (.set64 bitIndex value) := by
  simp [EncodedFields.Statement]

theorem EncodedFields.reverse (start length : Nat) : EncodedFields.Statement (.reverse start length) := by
  simp [EncodedFields.Statement]

theorem EncodedFields.rotate (offset length : Nat) (rightAmount : Int) :
    EncodedFields.Statement (.rotate offset length rightAmount) := by
  simp [EncodedFields.Statement]

theorem EncodedFields.status : EncodedFields.Statement .status := by
  simp [EncodedFields.Statement]

end Sys2Proof.Laws
end

