-- ==== Sys2Proof/Tests/Slice0.lean ====
section
/-! SUPPORT. Tests of the model against the written vectors of `95_test_vectors.md` and, for each obligation with hypotheses,
a named state and operands that meet all of them. -/

namespace Sys2Proof.Tests

-- One theorem after the other: many at once wait on each other, each on a stack of its own.
set_option Elab.async false

open Sys2Proof Sys2Proof.Machine

/-! ### Helpers -/

/-- A unit of 64 bytes in state READY with an array of `bits` bits over the bytes `bytes`. -/
def ready (bits : Nat) (bytes : List Byte) : State :=
  { State.reset with
      unit := .ready, bitCount := BitVec.ofNat 64 bits, buf := ⟨64, (List.range bytes.length).zip bytes⟩ }

/-- `s` with `events` presented to it. -/
def given (events : List HostEvent) (s : State) : State := { s with events := events }

/-- The next state of a result, `s` where there is none. -/
def after (r : Result) (s : State) : State :=
  match r with
  | .next t => t
  | .fault _ => s
  | .refused _ => s

/-- Whether a result is a next state. -/
def completes : Result → Bool
  | .next _ => true
  | .fault _ => false
  | .refused _ => false

/-- A result that completes answers the state `after` reads from it. -/
theorem next_after {r : Result} {s : State} (h : completes r = true) : r = .next (after r s) := by
  cases r <;> first | rfl | cases h

/-- The last response of a result: status, cause and value. -/
def answer (r : Result) : Option (Status × Cause × Word) :=
  match r with
  | .next t => t.responses.getLast?.map fun p => (p.status, p.cause, p.value)
  | .fault _ => none
  | .refused _ => none

/-- The bytes of BUF that a result leaves, from address 0. -/
def bytesOf (r : Result) : List Byte :=
  match r with
  | .next t => t.buf.cells.map Prod.snd
  | .fault _ => []
  | .refused _ => []

/-- The unit FAULTED by `GET 16` on 16 bits (`60_exceptions.md` R158). -/
def faulted : State := after (exec (.get 16) (ready 16 [0, 0, 0])) State.reset

/-- 13 bits over `4D 00` (`95_test_vectors.md` 2.2). -/
def bits13 : State := ready 13 [0x4D, 0x00, 0x00]

/-- 128 bits with byte `j` holding `j` (start W0 of `95_test_vectors.md` 2.3). -/
def bits128 : State := ready 128 [0, 1, 2, 3, 4, 5, 6, 7, 8, 9, 10, 11, 12, 13, 14, 15, 0]

/-- 24 bits over `4D A3 F0` (start T0 of `95_test_vectors.md` 2.6). -/
def bits24 : State := ready 24 [0x4D, 0xA3, 0xF0, 0x00]

/-- 64 bits in nine bytes: the smallest array with a window in bound. -/
def bits64 : State := ready 64 [1, 2, 3, 4, 5, 6, 7, 8, 0]

/-! ### Well-formedness: each operand check refuses a term -/

theorem test_wf_create : (Instr.create (2 ^ 64)).wellFormed = false ∧ (Instr.create (2 ^ 64 - 1)).wellFormed = true := by decide
theorem test_wf_get : (Instr.get (2 ^ 64)).wellFormed = false ∧ (Instr.get (2 ^ 64 - 1)).wellFormed = true := by decide
theorem test_wf_set : (Instr.set (2 ^ 64) true).wellFormed = false ∧ (Instr.set 0 true).wellFormed = true := by decide
theorem test_wf_get64 : (Instr.get64 (2 ^ 64)).wellFormed = false ∧ (Instr.get64 0).wellFormed = true := by decide
theorem test_wf_set64 : (Instr.set64 (2 ^ 64) 5).wellFormed = false ∧ (Instr.set64 0 5).wellFormed = true := by decide
theorem test_wf_reverse_start : (Instr.reverse (2 ^ 64) 0).wellFormed = false := by decide
theorem test_wf_reverse_length : (Instr.reverse 0 (2 ^ 64)).wellFormed = false := by decide
theorem test_wf_rotate_offset : (Instr.rotate (2 ^ 64) 0 0).wellFormed = false := by decide
theorem test_wf_rotate_length : (Instr.rotate 0 (2 ^ 64) 0).wellFormed = false := by decide
theorem test_wf_rotate_high : (Instr.rotate 0 0 (2 ^ 63)).wellFormed = false := by decide
theorem test_wf_rotate_low :
    (Instr.rotate 0 0 (-(2 ^ 63) - 1)).wellFormed = false ∧ (Instr.rotate 0 0 (-(2 ^ 63))).wellFormed = true := by decide

/-! ### Decoding: words written out in `95_test_vectors.md` 2.1 -/

theorem test_decode_create :
    decode 0x0000000000000000_0000000000000000_00000000000000C8_0000000000000001 = .ok (.create 200) := by decide +kernel
theorem test_decode_destroy :
    decode 0x0000000000000000_0000000000000000_0000000000000000_0000000000000002 = .ok .destroy := by decide +kernel
theorem test_decode_size :
    decode 0x0000000000000000_0000000000000000_0000000000000000_0000000000000003 = .ok .size := by decide +kernel
theorem test_decode_get :
    decode 0x0000000000000000_0000000000000000_0000000000000005_0000000000000004 = .ok (.get 5) := by decide +kernel
theorem test_decode_set_true :
    decode 0x0000000000000000_0000000000000001_0000000000000096_0000000000000005 = .ok (.set 150 true) := by
  decide +kernel
theorem test_decode_set_false :
    decode 0x0000000000000000_0000000000000000_0000000000000096_0000000000000005 = .ok (.set 150 false) := by
  decide +kernel
theorem test_decode_get64 :
    decode 0x0000000000000000_0000000000000000_0000000000000047_0000000000000006 = .ok (.get64 71) := by decide +kernel
theorem test_decode_set64 :
    decode 0x0000000000000000_0123456789ABCDEF_0000000000000003_0000000000000007
      = .ok (.set64 3 0x123456789ABCDEF) := by decide +kernel
theorem test_decode_reverse :
    decode 0x0000000000000000_00000000000000B4_000000000000000A_0000000000000008 = .ok (.reverse 10 180) := by
  decide +kernel
theorem test_decode_rotate_left :
    decode 0xFFFFFFFFFFFFFFD1_00000000000000B4_000000000000000A_0000000000000009 = .ok (.rotate 10 180 (-47)) := by
  decide +kernel
theorem test_decode_rotate_least :
    decode 0x8000000000000000_0000000000000001_0000000000000000_0000000000000009
      = .ok (.rotate 0 1 (-9223372036854775808)) := by decide +kernel
theorem test_decode_status :
    decode 0x0000000000000000_0000000000000000_0000000000000000_000000000000000A = .ok .status := by decide +kernel
theorem test_decode_illegal_opcodes :
    decode 0 = .error .unknownOpcode ∧ decode 0x0B = .error .unknownOpcode ∧ decode 0xFF = .error .unknownOpcode := by
  decide +kernel
theorem test_decode_illegal_header :
    decode 0x0000000000000000_0000000000000000_0000000000000000_0000000000000104 = .error .reservedBits := by
  decide +kernel
theorem test_decode_illegal_operands :
    decode 0x0000000000000000_0000000000000001_0000000000000005_0000000000000004 = .error .unusedOperand ∧
    decode 0x0000000000000000_0000000000000002_0000000000000005_0000000000000005 = .error .setValue ∧
    decode 0x0000000000000000_0000000000000000_0000000000000007_0000000000000003 = .error .unusedOperand ∧
    decode 0x0000000000000001_0000000000000008_0000000000000000_0000000000000008 = .error .unusedOperand ∧
    decode 0x8000000000000000_0000000000000000_0000000000000000_000000000000000A = .error .unusedOperand ∧
    decode 0x0000000000000000_0000000000000000_0000000000000001_0000000000000002 = .error .unusedOperand ∧
    decode 0x0000000000000000_0000000000000001_0000000000000008_0000000000000001 = .error .unusedOperand := by
  decide +kernel
theorem test_decodeTableWord : decodeTableWord 256 (2 ^ 64 * 5 + 4) = some (.get 5) ∧ decodeTableWord 256 0 = none := by
  decide +kernel

/-! ### One command each (`95_test_vectors.md`) -/

theorem test_reset_wf : State.reset.buf.wf = true := by decide
theorem test_reset_inv : State.reset.Inv := by decide +kernel

/-- 2.7 row 6, and 2.8: `CREATE 504` is the largest for 64 bytes. -/
theorem test_create_largest :
    answer (exec (.create 504) State.reset) = some (.ok, .none, 0) ∧
    bytesOf (exec (.create 504) State.reset) = List.replicate 64 0 := by decide +kernel
/-- 2.7 rows 3 and 8. -/
theorem test_create_noHandle :
    answer (exec (.create 505) State.reset) = some (.noHandle, .none, 0) ∧
    answer (exec (.create 8) bits13) = some (.noHandle, .none, 0) := by decide +kernel
/-- 2.7 rows 11 and 17. -/
theorem test_destroy :
    answer (exec .destroy bits13) = some (.ok, .none, 0) ∧ (after (exec .destroy bits13) bits13).unit = .empty ∧
    answer (exec .destroy faulted) = some (.faulted, .indexRange, 16) := by decide +kernel
/-- 2.1, the response words; 2.7, priority. -/
theorem test_size :
    (after (exec .size (ready 16 [0, 0, 0])) State.reset).lastResponseWord
      = some 0x0000000000000010_0000000001000000#128 ∧
    answer (exec .size State.reset) = some (.fault, .noArray, 0) := by decide +kernel
/-- 2.2. -/
theorem test_get : answer (exec (.get 6) bits13) = some (.ok, .none, 1) := by decide +kernel
/-- 2.2, the largest operand. -/
theorem test_get_last : answer (exec (.get 0xFFFFFFFFFFFFFFFF) bits13)
    = some (.fault, .indexRange, 0xFFFFFFFFFFFFFFFF) := by decide +kernel
/-- 2.2. -/
theorem test_set : bytesOf (exec (.set 12 true) bits13) = [0x4D, 0x10, 0x00] := by decide +kernel
/-- 2.2, a padding bit is no index. -/
theorem test_set_padding :
    answer (exec (.set 13 true) bits13) = some (.fault, .indexRange, 13) ∧
    bytesOf (exec (.set 13 true) bits13) = [0x4D, 0x00, 0x00] := by decide +kernel
/-- 2.3. -/
theorem test_get64 : answer (exec (.get64 71) bits128) = some (.ok, .none, 0x1E1C1A18161412) := by decide +kernel
/-- 2.3. -/
theorem test_get64_bound : answer (exec (.get64 72) bits128) = some (.fault, .wideBound, 72) := by decide +kernel
/-- 2.3, start W1. -/
theorem test_set64 :
    bytesOf (exec (.set64 3 0xFFFFFFFFFFFFFFFF) (ready 128 (List.replicate 17 0)))
      = [0xF8, 0xFF, 0xFF, 0xFF, 0xFF, 0xFF, 0xFF, 0xFF, 0x07, 0, 0, 0, 0, 0, 0, 0, 0] := by decide +kernel
/-- 2.3, start W2: the guard byte keeps its own bit 7. -/
theorem test_set64_guard :
    bytesOf (exec (.set64 71 0) (ready 128 (List.replicate 17 0xFF)))
      = [0xFF, 0xFF, 0xFF, 0xFF, 0xFF, 0xFF, 0xFF, 0xFF, 0x7F, 0, 0, 0, 0, 0, 0, 0, 0x80] := by decide +kernel
/-- 1.3, the mirror image of the primes below 16. -/
theorem test_reverse : bytesOf (exec (.reverse 0 16) (ready 16 [0xAC, 0x28, 0])) = [0x14, 0x35, 0] := by decide +kernel
/-- 2.5, `REVERSE 0, 130` on the bytes `10 11 ...`: one bulk round, one swap, a shared byte. -/
theorem test_reverse_bulk :
    (bytesOf (exec (.reverse 0 130) (ready 144 ((List.range 18).map (fun j => BitVec.ofNat 8 (16 + j)) ++ [0])))).take 17
      = [0xE0, 0xE3, 0xE1, 0xE2, 0x60, 0x63, 0x61, 0x62, 0xA0, 0xA3, 0xA1, 0xA2, 0x20, 0x23, 0x21, 0x22, 0x20] := by
  decide +kernel
/-- 1.1, the source's rotation. -/
theorem test_rotate : bytesOf (exec (.rotate 0 8 3) (ready 8 [0x4D, 0])) = [0x6A, 0] := by decide +kernel
/-- 2.6, the most negative amount. -/
theorem test_rotate_least : bytesOf (exec (.rotate 0 24 (-(2 ^ 63))) bits24) = [0xA3, 0xF0, 0x4D, 0] := by decide +kernel
/-- 2.1, the response words. -/
theorem test_status :
    (after (exec .status State.reset) State.reset).lastResponseWord = some 0 ∧
    (after (exec .status faulted) faulted).lastResponseWord = some 0x0000000000000010_0000000002040303#128 := by
  decide +kernel
/-- The first step after reset runs the command that stands where the unit takes its next command. -/
theorem test_withFetchWord :
    answer (step (State.reset.withFetchWord 256 3)) = some (.fault, .noArray, 0) ∧
    answer (step (State.reset.withFetchWord 256 (2 ^ 64 * 16 + 1))) = some (.ok, .none, 0) := by decide +kernel

/-! ### Witnesses: states and operands that meet the hypotheses of each obligation -/

theorem witness_EncodedCommandDecodesBack :
    (Instr.rotate (2 ^ 64 - 1) (2 ^ 64 - 1) (-(2 ^ 63))).WellFormed ∧ (Instr.create (2 ^ 64 - 1)).WellFormed := by decide

theorem witness_DecodedCommandEncodesBack :
    decode 0x7FFFFFFFFFFFFFFF_FFFFFFFFFFFFFFFF_FFFFFFFFFFFFFFFF_0000000000000009
      = .ok (.rotate (2 ^ 64 - 1) (2 ^ 64 - 1) (2 ^ 63 - 1)) := by decide +kernel

theorem witness_CommandMatchesItsPatternExactly :
    (∃ p ∈ patterns, p.mnemonic = "SET" ∧
      p.covers 0x0000000000000000_0000000000000001_0000000000000096_0000000000000005 = true ∧
      p.covers 0x0000000000000000_0000000000000002_0000000000000096_0000000000000005 = false) ∧
    ∃ i, decode 0x0000000000000000_0000000000000001_0000000000000096_0000000000000005 = .ok i ∧ mnemonicOf i = "SET" :=
  ⟨⟨_, List.mem_cons_of_mem _ (List.mem_cons_of_mem _ (List.mem_cons_of_mem _ (List.mem_cons_of_mem _
      List.mem_cons_self))), by decide +kernel, by decide +kernel, by decide +kernel⟩,
    ⟨.set 150 true, by decide +kernel, by decide⟩⟩

/-- An illegal command is presented in state READY. -/
theorem witness_IllegalCommandsAreTheseAndFault :
    (given [.command 0x104] bits13).events = .command 0x104 :: [] ∧ (given [.command 0x104] bits13).unit ≠ .faulted ∧
    decode 0x104 = .error .reservedBits ∧
    answer (step (given [.command 0x104] bits13)) = some (.fault, .illegalCmd, 0) := by decide +kernel

theorem witness_StepRunsTheDecodedCommand :
    (given [.command 3, .reset] bits13).events = .command 3 :: [.reset] ∧ decode 3 = .ok .size := by decide +kernel

theorem witness_FaultedUnitAnswersEveryCommandFaulted :
    (given [.command 0] faulted).unit = .faulted ∧ (given [.command 0] faulted).events = .command 0 :: [] ∧
    (ready 16 [0, 0, 0]).unit = .ready ∧ (ready 16 [0, 0, 0]).bitCount = 16 := by decide +kernel

theorem witness_ResetEventClearsTheUnit :
    (given [.reset] faulted).events = .reset :: [] ∧ (given [.cutCommand 3] bits13).events = .cutCommand 3 :: [] := by
  decide +kernel

theorem witness_IdleUnitKeepsItsState : bits13.events = [] := by decide

theorem witness_FaultEntryWritesTheFaultRegisters :
    (ready 16 [0, 0, 0]).unit = .ready ∧ (ready 16 [0, 0, 0]).bitCount = 16 := by decide +kernel

/-- A `GET 16` presented on 16 bits. -/
def faultingStep : State := given [.command 0x0000000000000010_0000000000000004] (ready 16 [0, 0, 0])

theorem witness_FaultsArePrecise :
    ∃ t, step faultingStep = .next t ∧ faultingStep.unit ≠ .faulted ∧ t.unit = .faulted :=
  ⟨after (step faultingStep) faultingStep, next_after (by decide +kernel), by decide +kernel, by decide +kernel⟩

theorem witness_OnlyResetLeavesFaulted :
    (∃ t, step (given [.reset] faulted) = .next t ∧ (given [.reset] faulted).unit = .faulted ∧ t.unit ≠ .faulted) ∧
    (∃ t, step (given [.cutCommand 4] faulted) = .next t ∧ (given [.cutCommand 4] faulted).unit = .faulted ∧
      t.unit ≠ .faulted) ∧
    (∃ t, (given [.command 3] bits13).events = .command 3 :: [] ∧ step (given [.command 3] bits13) = .next t ∧
      t.cause = .none) :=
  ⟨⟨after (step (given [.reset] faulted)) faulted, next_after (by decide +kernel), by decide +kernel, by decide +kernel⟩,
    ⟨after (step (given [.cutCommand 4] faulted)) faulted, next_after (by decide +kernel), by decide +kernel,
      by decide +kernel⟩,
    ⟨after (step (given [.command 3] bits13)) bits13, by decide, next_after (by decide +kernel), by decide +kernel⟩⟩

theorem witness_UnitStateTransitions :
    ∃ t, step (given [.command 1] State.reset) = .next t ∧ State.reset.unit = .empty ∧ t.unit = .ready ∧
      (given [.command 1] State.reset).events = .command 1 :: [] :=
  ⟨after (step (given [.command 1] State.reset)) State.reset, next_after (by decide +kernel), by decide +kernel,
    by decide +kernel, by decide +kernel⟩

/-- `CREATE 16`, `DESTROY` and a reset each change `BITCOUNT`. -/
theorem witness_OnlyLifeCycleWritesBitCount :
    (∃ t, step (given [.command 0x0000000000000010_0000000000000001] State.reset) = .next t ∧ t.bitCount = 16 ∧
      State.reset.bitCount = 0) ∧
    (∃ t, step (given [.command 2] bits13) = .next t ∧ t.bitCount = 0 ∧ bits13.bitCount = 13) ∧
    (∃ t, step (given [.reset] bits13) = .next t ∧ t.bitCount = 0 ∧ bits13.bitCount = 13) :=
  ⟨⟨after (step (given [.command 0x0000000000000010_0000000000000001] State.reset)) State.reset,
      next_after (by decide +kernel), by decide +kernel, by decide +kernel⟩,
    ⟨after (step (given [.command 2] bits13)) bits13, next_after (by decide +kernel), by decide +kernel,
      by decide +kernel⟩,
    ⟨after (step (given [.reset] bits13)) bits13, next_after (by decide +kernel), by decide +kernel, by decide +kernel⟩⟩

theorem witness_EveryStepKeepsTheInvariant :
    ∃ t, (given [.command 2] bits13).Inv ∧ step (given [.command 2] bits13) = .next t :=
  ⟨after (step (given [.command 2] bits13)) bits13, by decide +kernel, next_after (by decide +kernel)⟩

/-- The two ends of the range of `BUF_BYTES`. -/
theorem witness_ResetStateMeetsTheInvariant :
    ((1 : Nat) ≤ 1 ∧ 1 ≤ 2 ^ 61) ∧ ((1 : Nat) ≤ 2 ^ 61 ∧ 2 ^ 61 ≤ 2 ^ 61) := by decide

/-- From reset of a unit of two bytes, `CREATE 8` reaches READY; of one byte, `GET 0` reaches FAULTED. -/
theorem witness_ReachableStatesMeetRuleThirtySix :
    (∃ t, Host.Core.run Sys2Proof.core 1 (given [.command 0x0000000000000008_0000000000000001] (State.resetWith 2))
        = .next t ∧ t.unit = .ready) ∧
    (∃ t, Host.Core.run Sys2Proof.core 1 (given [.command 4] (State.resetWith 1)) = .next t ∧ t.unit = .faulted) :=
  ⟨⟨after (step (given [.command 0x0000000000000008_0000000000000001] (State.resetWith 2))) State.reset,
      next_after (s := State.reset)
        (r := Host.Core.run Sys2Proof.core 1
          (given [.command 0x0000000000000008_0000000000000001] (State.resetWith 2))) (by decide +kernel),
      by decide +kernel⟩,
    ⟨after (step (given [.command 4] (State.resetWith 1))) State.reset,
      next_after (s := State.reset)
        (r := Host.Core.run Sys2Proof.core 1 (given [.command 4] (State.resetWith 1))) (by decide +kernel),
      by decide +kernel⟩⟩

theorem witness_LegalStateAlwaysSteps :
    bits13.Inv ∧ (given [.command 0] bits13).Inv ∧ (given [.reset] faulted).Inv ∧
    (given [.cutCommand 1] State.reset).Inv :=
  ⟨by decide +kernel, by decide +kernel, by decide +kernel, by decide +kernel⟩

theorem witness_GoodRunIsNeverFaulted :
    ∃ t, step faultingStep = .next t ∧ faultingStep.goodRun = true ∧ faultingStep.unit ≠ .faulted :=
  ⟨after (step faultingStep) faultingStep, next_after (by decide +kernel), by decide +kernel, by decide +kernel⟩

/-- Only a state that no run reaches meets the second hypothesis: the statement says that none is entered. -/
theorem witness_ZeroDivisorIsNeverRaised :
    ∃ t, step ({ faulted with cause := .zeroDivisor } : State) = .next t ∧ t.cause = .zeroDivisor :=
  ⟨{ faulted with cause := .zeroDivisor },
    next_after (s := { faulted with cause := .zeroDivisor })
      (r := step ({ faulted with cause := .zeroDivisor } : State)) (by decide +kernel), by decide +kernel⟩

theorem witness_CommandsAnswerOnlyTheirOutcomes :
    ∃ t, exec (.rotate 9 8 8) (ready 16 [0, 0, 0]) = .next t ∧ (ready 16 [0, 0, 0]).unit ≠ .faulted :=
  ⟨after (exec (.rotate 9 8 8) (ready 16 [0, 0, 0])) State.reset, next_after (by decide +kernel), by decide +kernel⟩

/-- The empty array and the largest one. -/
theorem witness_CreateMakesAZeroedArray :
    State.reset.Inv ∧ State.reset.unit = .empty ∧ byteCount 0 + 1 ≤ State.reset.buf.size ∧
    byteCount 504 + 1 ≤ State.reset.buf.size := by decide +kernel

theorem witness_CreateWithoutRoomAnswersNoHandle :
    State.reset.buf.SizeLegal ∧ State.reset.unit = .empty ∧ maxBits State.reset.buf.size < 505 ∧
    bits13.buf.SizeLegal ∧ bits13.unit = .ready := by decide +kernel

theorem witness_DestroyGivesTheArrayUp :
    bits13.unit ≠ .faulted ∧ State.reset.Inv ∧ State.reset.unit = .empty := by decide +kernel

theorem witness_SizeReadsBitCount : bits13.unit = .ready := by decide

theorem witness_StatusReportsTheCondition :
    bits13.unit ≠ .faulted ∧ bits13.Inv ∧ State.reset.Inv ∧ faulted.unit = .faulted := by decide +kernel

theorem witness_ArrayCommandsFaultWithoutAnArray :
    State.reset.unit = .empty ∧ needsArray (.rotate 0 0 5) = true ∧ needsArray .size = true := by decide

theorem witness_GetReadsTheBit : bits13.ReadyInv ∧ 12 < bits13.bitCount.toNat := by decide +kernel

theorem witness_SetWritesTheBitOnly : bits13.ReadyInv ∧ 0 < bits13.bitCount.toNat := by decide +kernel

theorem witness_IndexOutOfRangeFaults : bits13.unit = .ready ∧ bits13.bitCount.toNat ≤ 13 := by decide +kernel

theorem witness_SetThenGetRoundTrip :
    bits13.ReadyInv ∧ 12 < bits13.bitCount.toNat ∧ 23 ≠ 12 ∧ 23 < 8 * (bits13.nb + 1) := by decide +kernel

theorem witness_WideBoundAgreesWithTheSource : bits13.nb < 8 ∧ 8 ≤ bits64.nb := by decide +kernel

theorem witness_Get64ReadsTheWindow : bits128.ReadyInv ∧ 71 / 8 + 8 ≤ bits128.nb := by decide +kernel

theorem witness_Set64WritesTheWindowOnly : bits64.ReadyInv ∧ 7 / 8 + 8 ≤ bits64.nb := by decide +kernel

theorem witness_WindowOutOfBoundFaults : bits128.unit = .ready ∧ bits128.nb < 72 / 8 + 8 := by decide +kernel

theorem witness_MixedWidthReadAfterWrite :
    (bits128.ReadyInv ∧ 64 / 8 + 8 ≤ bits128.nb ∧ 64 + 63 < bits128.bitCount.toNat ∧ 1 / 8 + 8 ≤ bits128.nb) ∧
    (bits128.ReadyInv ∧ 3 / 8 + 8 ≤ bits128.nb ∧ 3 ≤ 66 ∧ 66 ≤ 3 + 63 ∧ 66 < bits128.bitCount.toNat) := by decide +kernel

theorem witness_ReadsHaveNoSideEffect :
    (∃ t, exec (.get 12) bits13 = .next t ∧ t.unit = bits13.unit) ∧
    (∃ t, exec (.get64 71) bits128 = .next t ∧ t.unit = bits128.unit) ∧
    (∃ t, exec .size bits13 = .next t ∧ t.unit = bits13.unit) ∧
    (∃ t, exec .status State.reset = .next t ∧ t.unit = State.reset.unit) :=
  ⟨⟨after (exec (.get 12) bits13) bits13, next_after (by decide +kernel), by decide +kernel⟩,
    ⟨after (exec (.get64 71) bits128) bits128, next_after (by decide +kernel), by decide +kernel⟩,
    ⟨after (exec .size bits13) bits13, next_after (by decide +kernel), by decide +kernel⟩,
    ⟨after (exec .status State.reset) State.reset, next_after (by decide +kernel), by decide +kernel⟩⟩

theorem witness_RepeatedWriteChangesNothing :
    (∃ t u, bits13.Inv ∧ exec (.set 12 true) bits13 = .next t ∧ exec (.set 12 true) t = .next u) ∧
    (∃ t u, bits64.Inv ∧ exec (.set64 7 5) bits64 = .next t ∧ exec (.set64 7 5) t = .next u) :=
  ⟨⟨after (exec (.set 12 true) bits13) bits13, _, by decide +kernel, next_after (by decide +kernel),
      next_after (s := bits13) (by decide +kernel)⟩,
    ⟨after (exec (.set64 7 5) bits64) bits64, _, by decide +kernel, next_after (by decide +kernel),
      next_after (s := bits64) (by decide +kernel)⟩⟩

theorem witness_ReverseMirrorsTheRange :
    bits128.ReadyInv ∧ 0 < 128 ∧ 0 + 128 ≤ bits128.bitCount.toNat ∧ 127 + 1 ≤ bits128.bitCount.toNat := by decide +kernel

theorem witness_EmptyRangeIsANoOp : bits13.unit = .ready := by decide

theorem witness_RangePastTheEndFaults :
    bits24.unit = .ready ∧ 0 < 25 ∧ bits24.bitCount.toNat < 0 + 25 ∧ bits24.bitCount.toNat < 24 + 1 := by decide +kernel

theorem witness_ReverseTwiceRestores : bits128.ReadyInv ∧ 128 ≤ bits128.bitCount.toNat := by decide +kernel

/-- Each clause on the sign of the amount: 0, the least amount, and a negative multiple. -/
theorem witness_AmountIsNormalisedIntoTheLength :
    (0 : Nat) < 180 ∧ (0 : Int) ≤ 0 ∧ (-(2 ^ 63) : Int) < 0 ∧ (-(-(2 ^ 63) : Int)).toNat % 180 ≠ 0 ∧ (-8 : Int) < 0 ∧
    (-(-8 : Int)).toNat % 8 = 0 := by decide

theorem witness_RotateMovesEveryBit :
    bits24.ReadyInv ∧ 0 < 24 ∧ 0 + 24 ≤ bits24.bitCount.toNat ∧ 23 + 1 ≤ bits24.bitCount.toNat := by decide +kernel

/-- An empty range past the end; and a range that ends with the array, by a negative multiple of its length. -/
theorem witness_RotateByAMultipleIsANoOp :
    bits24.unit = .ready ∧ (16 + 8 ≤ bits24.bitCount.toNat ∧ ((8 : Nat) : Int) ∣ -16) := by decide +kernel

theorem witness_RotateBackRestores : bits24.ReadyInv ∧ 4 + 20 ≤ bits24.bitCount.toNat := by decide +kernel

theorem witness_NegativeAmountIsTheComplement : (0 : Nat) < 1 ∧ bits24.unit = .ready := by decide

theorem witness_RotationsCompose :
    bits24.ReadyInv ∧ 0 < 13 ∧ 11 + 13 ≤ bits24.bitCount.toNat ∧
    (2 : Int) % ((13 : Nat) : Int) = (7 + 8) % ((13 : Nat) : Int) := by decide +kernel

theorem witness_LiteralNormalisationEndsTheSame : bits24.ReadyInv ∧ 4 + 20 ≤ bits24.bitCount.toNat := by decide +kernel

theorem witness_PaddingAndGuardAreKept :
    ∃ t, bits13.ReadyInv ∧ exec (.reverse 0 13) bits13 = .next t ∧ bits13.bitCount.toNat ≤ 13 :=
  ⟨after (exec (.reverse 0 13) bits13) bits13, by decide +kernel, next_after (by decide +kernel), by decide +kernel⟩

theorem witness_UnreachableBytesAreKept :
    ∃ t, bits64.ReadyInv ∧ exec (.set64 7 5) bits64 = .next t ∧ bits64.nb < 9 :=
  ⟨after (exec (.set64 7 5) bits64) bits64, by decide +kernel, next_after (by decide +kernel), by decide +kernel⟩

/-- Two arrays of 13 bits with other padding and guard bits. -/
theorem witness_ResultsDoNotDependOnPadding :
    bits13.ReadyInv ∧ (ready 13 [0x4D, 0xE0, 0xFF]).ReadyInv ∧ bits13.bitCount = (ready 13 [0x4D, 0xE0, 0xFF]).bitCount ∧
    bits13.responses = (ready 13 [0x4D, 0xE0, 0xFF]).responses ∧
    (∀ j, j < bits13.bitCount.toNat → bits13.buf.bit j = (ready 13 [0x4D, 0xE0, 0xFF]).buf.bit j) := by decide +kernel

end Sys2Proof.Tests
end

section
/-! PROOFS. The array updates of SET, REVERSE and ROTATE as maps on bits confined to the array (`10_state.md` R29): one
property of an operation over BUF, from which follow that it completes, what it leaves alone and what it depends on. -/

namespace Sys2Proof.Proofs

open Sys2Proof.Machine Sys2Proof.Laws

/-- A map on the bits of BUF whose results below `n` depend on the bits below `n` only, and which changes no bit from `n` on. -/
structure Confined (n : Nat) (F : (Nat → Bool) → Nat → Bool) : Prop where
  inside : ∀ f g : Nat → Bool, (∀ j, j < n → f j = g j) → ∀ j, j < n → F f j = F g j
  outside : ∀ (f : Nat → Bool) (j : Nat), n ≤ j → F f j = f j

/-- An operation over BUF that completes wherever the bytes below `N` hold values, and is there a map on bits confined to the
first `n`. -/
def ArrayUpdate (N n : Nat) (op : Memory → Except Fault Memory) : Prop :=
  ∃ F, Confined n F ∧ ∀ m : Memory, m.Covers N →
    ∃ m', op m = .ok m' ∧ Memory.Evolves N m m' ∧ ∀ j, m'.bitAt j = F m.bitAt j

/-- What is known of the one memory an operation completes with is known of the memory it completed with. -/
theorem of_completes {x : Except Fault Memory} {P : Memory → Prop} (h : ∃ m', x = .ok m' ∧ P m') {m : Memory}
    (hm : x = .ok m) : P m := by
  obtain ⟨m', hx, hP⟩ := h
  obtain rfl : m' = m := Except.ok.inj (hx.symm.trans hm)
  exact hP

/-! ### The three updates -/

theorem setbit_arrayUpdate {N n i : Nat} (v : Bool) (hi : i < n) (hN : n / 8 < N) :
    ArrayUpdate N n (fun m => m.setbit i v) := by
  refine ⟨fun f j => if j = i then v else f j, ⟨fun f g hfg j hj => ?_, fun f j hj => ?_⟩, fun m hc => ?_⟩
  · simp only [hfg j hj]
  · exact if_neg (by omega)
  · exact setbit_spec v hc (by omega)

theorem reverse_arrayUpdate {N n start length : Nat} (hr : start + length ≤ n) (hN : n / 8 < N) :
    ArrayUpdate N n (fun m => m.reverse start length) := by
  refine ⟨fun f j => if start ≤ j ∧ j < start + length then f (start + (start + length) - 1 - j) else f j,
    ⟨fun f g hfg j hj => ?_, fun f j hj => ?_⟩, fun m hc => ?_⟩
  · by_cases hin : start ≤ j ∧ j < start + length
    · simp only [if_pos hin]; exact hfg _ (by omega)
    · simp only [if_neg hin]; exact hfg j hj
  · exact if_neg (by omega)
  · exact reverse_spec hc (by omega)

theorem threeReversals_arrayUpdate {N n offset length k : Nat} (hk : k < length) (hr : offset + length ≤ n)
    (hN : n / 8 < N) : ArrayUpdate N n (fun m => m.threeReversals offset length k) := by
  refine ⟨fun f j => if offset ≤ j ∧ j < offset + length then
      if j < offset + k then f (j + length - k) else f (j - k) else f j,
    ⟨fun f g hfg j hj => ?_, fun f j hj => ?_⟩, fun m hc => ?_⟩
  · by_cases hin : offset ≤ j ∧ j < offset + length
    · simp only [if_pos hin]
      by_cases hlow : j < offset + k
      · simp only [if_pos hlow]; exact hfg _ (by omega)
      · simp only [if_neg hlow]; exact hfg _ (by omega)
    · simp only [if_neg hin]; exact hfg j hj
  · exact if_neg (by omega)
  · exact threeReversals_spec hc (by omega) hk

/-! ### What an array update does -/

section ArrayUpdate
variable {N n : Nat} {op : Memory → Except Fault Memory} {m m' : Memory}

theorem ArrayUpdate.evolves (hop : ArrayUpdate N n op) (hc : m.Covers N) (hm : op m = .ok m') :
    Memory.Evolves N m m' := by
  obtain ⟨F, _, hspec⟩ := hop
  exact (of_completes (hspec m hc) hm).1

/-- Every bit from `n` on reads as before. -/
theorem ArrayUpdate.keeps_bit (hop : ArrayUpdate N n op) (hc : m.Covers N) (hm : op m = .ok m') {j : Nat} (hj : n ≤ j) :
    m'.bit j = m.bit j := by
  obtain ⟨F, hF, hspec⟩ := hop
  obtain ⟨he, hb⟩ := of_completes (hspec m hc) hm
  exact bit_of_evolves hc he ((hb j).trans (hF.outside _ j hj))

/-- Bits that read alike are alike. -/
theorem bitAt_eq_of_bit_eq {m₁ m₂ : Memory} {j : Nat} (hc₁ : m₁.Covers N) (hc₂ : m₂.Covers N) (hj : j / 8 < N)
    (h : m₁.bit j = m₂.bit j) : m₁.bitAt j = m₂.bitAt j := by
  rw [bit_of_covers hc₁ hj, bit_of_covers hc₂ hj] at h
  exact Except.ok.inj h

/-- Two memories that agree on the first `n` bits still agree on them afterwards. -/
theorem ArrayUpdate.agree (hop : ArrayUpdate N n op) {m₁ m₂ : Memory} (hc₁ : m₁.Covers N) (hc₂ : m₂.Covers N)
    (hN : n / 8 < N) (h : ∀ j, j < n → m₁.bit j = m₂.bit j) :
    ∃ m₁' m₂', op m₁ = .ok m₁' ∧ op m₂ = .ok m₂' ∧ ∀ j, j < n → m₁'.bit j = m₂'.bit j := by
  obtain ⟨F, hF, hspec⟩ := hop
  obtain ⟨m₁', hm₁, he₁, hb₁⟩ := hspec m₁ hc₁
  obtain ⟨m₂', hm₂, he₂, hb₂⟩ := hspec m₂ hc₂
  refine ⟨m₁', m₂', hm₁, hm₂, fun j hj => ?_⟩
  have hjN : j / 8 < N := by omega
  have hbits : ∀ k, k < n → m₁.bitAt k = m₂.bitAt k := fun k hk =>
    bitAt_eq_of_bit_eq hc₁ hc₂ (by omega) (h k hk)
  rw [bit_of_covers he₁.covers hjN, bit_of_covers he₂.covers hjN, hb₁, hb₂, hF.inside _ _ hbits j hj]

end ArrayUpdate

/-! ### In a legal state READY -/

/-- The array and its first guard bit lie in the bytes `0 .. NB` (R23). -/
theorem bitCount_div_lt_nb (s : State) : s.bitCount.toNat / 8 < s.nb + 1 := by
  have : s.nb = (s.bitCount.toNat + 7) / 8 := rfl
  omega

/-- The amount of ROTATE is below the length (R127). -/
theorem rotateAmount_lt {b : Nat} (r : Int) (hb : 0 < b) : (r % (b : Int)).toNat < b := by
  have := Int.emod_lt_of_pos r (show (0 : Int) < b by omega)
  omega

theorem setbit_updates (s : State) {a : Nat} (v : Bool) (ha : a < s.bitCount.toNat) :
    ArrayUpdate (s.nb + 1) s.bitCount.toNat (fun m => m.setbit a v) :=
  setbit_arrayUpdate v ha (bitCount_div_lt_nb s)

theorem reverse_updates (s : State) {a b : Nat} (hr : a + b ≤ s.bitCount.toNat) :
    ArrayUpdate (s.nb + 1) s.bitCount.toNat (fun m => m.reverse a b) :=
  reverse_arrayUpdate hr (bitCount_div_lt_nb s)

theorem threeReversals_updates (s : State) {a b n : Nat} (hn : n < b) (hr : a + b ≤ s.bitCount.toNat) :
    ArrayUpdate (s.nb + 1) s.bitCount.toNat (fun m => m.threeReversals a b n) :=
  threeReversals_arrayUpdate hn hr (bitCount_div_lt_nb s)

theorem set64_evolves {s : State} {a : Nat} {w : Word} {m : Memory} (hs : s.ReadyInv) (ha : a / 8 + 8 ≤ s.nb)
    (hm : s.buf.set64 a w = .ok m) : Memory.Evolves (s.nb + 1) s.buf m :=
  (of_completes (set64_spec w (covers_of_readyInv hs) (by omega)) hm).1

end Sys2Proof.Proofs
end

section
/-! PROOFS. Everything a step can do (`60_exceptions.md` R160, `70_reset_and_hazards.md` R180, R181), and the transitions of
`STATE` and `BITCOUNT` read off it (`10_state.md` R21, R22). -/

namespace Sys2Proof.Proofs

open Sys2Proof.Machine Sys2Proof.Laws

/-- `StepEffect s t`: what the host presents takes `s` to `t`. -/
inductive StepEffect (s : State) : State → Prop
  | idle (he : s.events = []) : StepEffect s s
  | ignored (cmd : Command) (rest : List HostEvent) (he : s.events = .command cmd :: rest) (hu : s.unit = .faulted) :
      StepEffect s (respondFaulted { s with events := rest })
  | illegal (cmd : Command) (rest : List HostEvent) (he : s.events = .command cmd :: rest) (hu : s.unit ≠ .faulted) :
      StepEffect s (raiseFault .illegalCmd cmd { s with events := rest })
  | executed (cmd : Command) (rest : List HostEvent) (i : Instr) (t : State) (he : s.events = .command cmd :: rest)
      (hd : decode cmd = .ok i) (h : Effect { s with events := rest } i t) : StepEffect s t
  | reset (rest : List HostEvent) (he : s.events = .reset :: rest ∨ ∃ cmd, s.events = .cutCommand cmd :: rest) :
      StepEffect s (resetUnit { s with events := rest })

/-- Every next state of a step is one of the effects. -/
theorem step_effect {s t : State} (h : step s = .next t) : StepEffect s t := by
  rcases step_eq_next.1 h with ⟨he, rfl⟩ | ⟨cmd, rest, he, hrun⟩ | ⟨rest, he, rfl⟩ | ⟨cmd, rest, he, rfl⟩
  · exact .idle he
  · rcases runCommand_eq_next.1 hrun with ⟨hu, rfl⟩ | ⟨hu, _, _, rfl⟩ | ⟨_, i, hd, hexec⟩
    · exact .ignored cmd rest he hu
    · exact .illegal cmd rest he hu
    · exact .executed cmd rest i t he hd (exec_effect hexec)
  · exact .reset rest (Or.inl he)
  · exact .reset rest (Or.inr ⟨cmd, he⟩)

/-- A command's own fault has a cause (R156). -/
theorem cause_ne_none_of_causeFits {i : Instr} {c : Cause} (h : causeFits i c) : c ≠ .none := by
  rintro rfl
  exact h

/-- The response to a command reports `STATE` after it (R61). -/
theorem effect_response {s t : State} {i : Instr} (h : Effect s i t) :
    ∃ r, t.responses = s.responses ++ [r] ∧ r.unit = t.unit := by
  cases h <;> exact ⟨_, rfl, rfl⟩

/-- The transitions of `STATE` by a command (R21). -/
theorem effect_unit {s t : State} {i : Instr} (h : Effect s i t) :
    t.unit = s.unit ∨ (s.unit = .empty ∧ t.unit = .ready ∧ ∃ n, i = .create n) ∨
      (s.unit = .ready ∧ t.unit = .empty ∧ i = .destroy) ∨
      (s.unit ≠ .faulted ∧ t.unit = .faulted ∧ t.cause ≠ .none) := by
  cases h with
  | raised _ c hu hc => exact Or.inr (Or.inr (Or.inr ⟨hu, rfl, cause_ne_none_of_causeFits hc⟩))
  | created n m hu => exact Or.inr (Or.inl ⟨hu, rfl, n, rfl⟩)
  | destroyed hu =>
    cases hs : s.unit with
    | empty => exact Or.inl rfl
    | ready => exact Or.inr (Or.inr (Or.inl ⟨rfl, rfl, rfl⟩))
    | faulted => exact absurd hs hu
  | ignored | answered | noHandle | wroteBit | wroteWindow | reversed | rotated => exact Or.inl rfl

/-- A command that changes `BITCOUNT` is a CREATE from EMPTY or a DESTROY (R22). -/
theorem effect_bitCount {s t : State} {i : Instr} (h : Effect s i t) :
    t.bitCount = s.bitCount ∨
      (∃ n, i = .create n ∧ s.unit = .empty ∧ t.unit = .ready ∧ t.bitCount = BitVec.ofNat 64 n) ∨
      (i = .destroy ∧ t.unit = .empty ∧ t.bitCount = 0) := by
  cases h with
  | created n m hu => exact Or.inr (Or.inl ⟨n, rfl, hu, rfl, rfl⟩)
  | destroyed => exact Or.inr (Or.inr ⟨rfl, rfl, rfl⟩)
  | ignored | raised | answered | noHandle | wroteBit | wroteWindow | reversed | rotated => exact Or.inl rfl

/-- The one row of R62 that reads a CREATE takes its operand from field `A`. -/
theorem decodeFields_create {op : Byte} {a b c : Word} {n : Nat} (h : decodeFields op a b c = .ok (.create n)) :
    BitVec.ofNat 64 n = a := by
  unfold decodeFields at h
  split at h
  case h_1 =>
    split at h
    · cases h; simp
    · cases h
  all_goals (repeat' split at h) <;> cases h

/-- The operand of a decoded CREATE is field `A` (R62). -/
theorem decode_create {cmd : Command} {n : Nat} (h : decode cmd = .ok (.create n)) :
    BitVec.ofNat 64 n = commandA cmd := by
  have hfields : decodeFields (commandOp cmd) (commandA cmd) (commandB cmd) (commandC cmd) = .ok (.create n) := by
    unfold decode at h
    split at h
    · exact h
    · cases h
  exact decodeFields_create hfields

/-- Settles O18: `STATE` changes only along the transitions of R21. -/
theorem unitStateTransitions : Obligations.UnitStateTransitions := by
  intro s t h
  cases step_effect h with
  | idle he => exact ⟨Or.inl rfl, fun cmd rest h' => by simp [he] at h'⟩
  | ignored cmd rest he hu => exact ⟨Or.inl rfl, fun _ _ _ => ⟨_, rfl, rfl⟩⟩
  | illegal cmd rest he hu =>
    exact ⟨Or.inr (Or.inr (Or.inr (Or.inl ⟨hu, rfl, Cause.noConfusion, cmd, rest, he⟩))), fun _ _ _ => ⟨_, rfl, rfl⟩⟩
  | executed cmd rest i _ he hd heff =>
    have hresp := effect_response heff
    refine ⟨?_, fun _ _ _ => hresp⟩
    rcases effect_unit heff with hsame | ⟨hu, ht, n, rfl⟩ | ⟨hu, ht, rfl⟩ | ⟨hu, ht, hc⟩
    · exact Or.inl hsame
    · exact Or.inr (Or.inl ⟨hu, ht, cmd, rest, n, he, hd⟩)
    · exact Or.inr (Or.inr (Or.inl ⟨hu, ht, cmd, rest, he, hd⟩))
    · exact Or.inr (Or.inr (Or.inr (Or.inl ⟨hu, ht, hc, cmd, rest, he⟩)))
  | reset rest he =>
    refine ⟨Or.inr (Or.inr (Or.inr (Or.inr ⟨rfl, rest, he⟩))), fun cmd rest' h' => ?_⟩
    rcases he with he | ⟨cut, he⟩ <;> simp [he] at h'

/-- Settles O19: of the effects of a step only CREATE, DESTROY and reset write `BITCOUNT`. -/
theorem onlyLifeCycleWritesBitCount : Obligations.OnlyLifeCycleWritesBitCount := by
  intro s t h hne
  cases step_effect h with
  | idle => exact absurd rfl hne
  | ignored => exact absurd rfl hne
  | illegal => exact absurd rfl hne
  | executed cmd rest i _ he hd heff =>
    rcases effect_bitCount heff with hsame | ⟨n, rfl, hu, ht, hb⟩ | ⟨rfl, ht, hb⟩
    · exact absurd hsame hne
    · exact Or.inl ⟨cmd, rest, n, he, hd, hu, ht, hb.trans (decode_create hd)⟩
    · exact Or.inr (Or.inl ⟨cmd, rest, he, hd, ht, hb⟩)
  | reset rest he => exact Or.inr (Or.inr ⟨⟨rest, he⟩, rfl⟩)

end Sys2Proof.Proofs
end

section
/-! PROOFS. The invariants of `10_state.md` R36: each update of the state keeps them, so every step does, so they hold in
every state a run from reset reaches. -/

namespace Sys2Proof.Proofs

open Sys2Proof.Machine Sys2Proof.Laws

/-! ### Each update of the state -/

/-- Outside FAULTED the fault registers hold nothing (R36 (d), (e)). -/
theorem faultRegisters_of_not_faulted {s : State} (h : s.Inv) (hu : s.unit ≠ .faulted) :
    s.cause = .none ∧ s.fop = 0 ∧ s.farg = 0 := by
  obtain ⟨_, _, _, _, hcause, hregs, _, _⟩ := h
  exact ⟨not_not.1 fun hc => hu (hcause.2 hc), hregs hu⟩

/-- The host's events are no part of the invariant. -/
theorem inv_withEvents {s : State} (h : s.Inv) (rest : List HostEvent) : ({ s with events := rest } : State).Inv := h

/-- The responses so far are no part of the invariant. -/
theorem inv_respond {s : State} (h : s.Inv) (st : Status) (v : Word) : (respond st v s).Inv := h

theorem inv_raiseFault {s : State} (h : s.Inv) {c : Cause} (hc : c ≠ .none) (cmd : Command) :
    (raiseFault c cmd s).Inv := by
  obtain ⟨hsize, hwf, _, _, _, _, _, _⟩ := h
  exact ⟨hsize, hwf, nofun, nofun, iff_of_true rfl hc, fun hne => absurd rfl hne, nofun, nofun⟩

/-- A unit EMPTY without bits, causes or bytes is legal. -/
theorem inv_of_cleared {s : State} (hsize : s.buf.SizeLegal) (hu : s.unit = .empty) (hb : s.bitCount = 0)
    (hregs : s.cause = .none ∧ s.fop = 0 ∧ s.farg = 0) (hcells : s.buf.cells = []) : s.Inv := by
  obtain ⟨hc, hf, ha⟩ := hregs
  refine ⟨hsize, ?_, fun _ => hb, ?_, ?_, fun _ => ⟨hf, ha⟩, ?_, fun _ => hcells⟩
  · simp [Memory.wf, hcells, risingWithin]
  · simp [State.ReadyFits, hu]
  · simp [State.CauseIffFaulted, hu, hc]
  · simp [State.ReadyHoldsBytes, hu]

theorem inv_resetUnit {s : State} (h : s.Inv) : (resetUnit s).Inv :=
  inv_of_cleared h.1 rfl rfl ⟨rfl, rfl, rfl⟩ rfl

/-- What DESTROY leaves (R142). -/
theorem inv_destroyed {s : State} (h : s.Inv) (hu : s.unit ≠ .faulted) :
    ({ s with bitCount := 0, unit := .empty, buf := s.buf.forget } : State).Inv :=
  have hregs := faultRegisters_of_not_faulted h hu
  inv_of_cleared h.1 rfl rfl hregs rfl

/-- A write within the bytes `0 .. NB`. -/
theorem inv_of_evolves {s : State} {m : Memory} (h : s.ReadyInv) (he : Memory.Evolves (s.nb + 1) s.buf m) :
    ({ s with buf := m } : State).Inv := by
  obtain ⟨hu, ⟨hsize, hwf, hempty, hfits, hcause, hregs, _, _⟩⟩ := h
  have hm := he.size_eq
  refine ⟨?_, he.wf hwf, hempty, fun hr => ?_, hcause, hregs, fun _ => he.covers.2, fun hr => ?_⟩
  · simpa only [Memory.SizeLegal, hm] using hsize
  · simpa only [State.nb, hm] using hfits hr
  · exact absurd (hu.symm.trans hr) (by decide)

/-- An array that fits has at most `MAX_BITS` bits, and its size is a 64-bit number (R5, R140). -/
theorem fits_bounds {m : Memory} {n : Nat} (hsize : m.SizeLegal) (hn : doesNotFit m.size n = false) :
    byteCount n + 1 ≤ m.size ∧ n ≤ maxBits m.size ∧ n < 2 ^ 64 := by
  obtain ⟨_, hmax⟩ := hsize
  have hfit : ¬ m.size < byteCount n + Config.guardBytes := of_decide_eq_false hn
  simp only [byteCount, Config.guardBytes, Config.maxBufBytes, maxBits] at hfit hmax ⊢
  omega

/-- What a CREATE that fits leaves (R140). -/
theorem inv_created {s : State} {n : Nat} {m : Memory} (h : s.Inv) (hu : s.unit = .empty)
    (hn : doesNotFit s.buf.size n = false) (hm : s.buf.zeroFill (byteCount n + 1) = .ok m) :
    m.size = s.buf.size ∧ ({ s with bitCount := BitVec.ofNat 64 n, buf := m, unit := .ready } : State).Inv := by
  obtain ⟨hc, hf, ha⟩ := faultRegisters_of_not_faulted h (by simp [hu])
  obtain ⟨hsize, hwf, _, _, _, _, _, _⟩ := h
  obtain ⟨hfit, hmax, hlt⟩ := fits_bounds hsize hn
  obtain ⟨hms, hmwf, hcells⟩ := of_completes (zeroFill_spec s.buf (byteCount n + 1) hfit) hm
  have hbits : (BitVec.ofNat 64 n).toNat = n := by rw [BitVec.toNat_ofNat, Nat.mod_eq_of_lt hlt]
  refine ⟨hms, ?_, hmwf hwf, nofun, fun _ => ?_, ?_, fun _ => ⟨hf, ha⟩, fun _ => ?_, nofun⟩
  · simpa only [Memory.SizeLegal, hms] using hsize
  · simpa only [State.nb, hbits, hms] using And.intro hmax hfit
  · simp [State.CauseIffFaulted, hc]
  · intro a hlt'
    simp only [State.nb, hbits] at hlt'
    simp [hcells a, hlt']

/-! ### Every step -/

/-- A command that writes within the bytes `0 .. NB` and answers OK. -/
theorem write_keeps_inv {s : State} {m : Memory} (h : s.ReadyInv) (he : Memory.Evolves (s.nb + 1) s.buf m) :
    m.size = s.buf.size ∧ (respond .ok 0 { s with buf := m }).Inv :=
  ⟨he.size_eq, inv_respond (inv_of_evolves h he) _ _⟩

/-- A command that completes an array update and answers OK. -/
theorem update_keeps_inv {s : State} {op : Memory → Except Fault Memory} {m : Memory} (h : s.ReadyInv)
    (hop : ArrayUpdate (s.nb + 1) s.bitCount.toNat op) (hm : op s.buf = .ok m) :
    m.size = s.buf.size ∧ (respond .ok 0 { s with buf := m }).Inv :=
  write_keeps_inv h (hop.evolves (covers_of_readyInv h) hm)

/-- Every command keeps the size of BUF and the invariant. -/
theorem effect_keeps_inv {s t : State} {i : Instr} (h : s.Inv) (heff : Effect s i t) :
    t.buf.size = s.buf.size ∧ t.Inv := by
  cases heff with
  | ignored => exact ⟨rfl, inv_respond h _ _⟩
  | raised _ c hu hc => exact ⟨rfl, inv_raiseFault h (cause_ne_none_of_causeFits hc) _⟩
  | answered => exact ⟨rfl, inv_respond h _ _⟩
  | noHandle => exact ⟨rfl, inv_respond h _ _⟩
  | created n m hu hn hm =>
    obtain ⟨hsize, hinv⟩ := inv_created h hu hn hm
    exact ⟨hsize, inv_respond hinv _ _⟩
  | destroyed hu => exact ⟨rfl, inv_respond (inv_destroyed h hu) _ _⟩
  | wroteBit a v m hu hr hm => exact update_keeps_inv ⟨hu, h⟩ (setbit_updates s v hr) hm
  | wroteWindow a w m hu hr hm => exact write_keeps_inv ⟨hu, h⟩ (set64_evolves ⟨hu, h⟩ hr hm)
  | reversed a b m hu hb hr hm => exact update_keeps_inv ⟨hu, h⟩ (reverse_updates s hr) hm
  | rotated a b n r m hu hb hr hn hn0 hm =>
    exact update_keeps_inv ⟨hu, h⟩ (threeReversals_updates s (hn ▸ rotateAmount_lt r hb) hr) hm

/-- Every step keeps the size of BUF and the invariant. -/
theorem step_keeps_inv {s t : State} (h : s.Inv) (hstep : step s = .next t) : t.buf.size = s.buf.size ∧ t.Inv := by
  cases step_effect hstep with
  | idle => exact ⟨rfl, h⟩
  | ignored cmd rest => exact ⟨rfl, inv_respond (inv_withEvents h rest) _ _⟩
  | illegal cmd rest => exact ⟨rfl, inv_raiseFault (inv_withEvents h rest) Cause.noConfusion cmd⟩
  | executed cmd rest i _ he hd heff =>
    have hkeeps := effect_keeps_inv (inv_withEvents h rest) heff
    exact hkeeps
  | reset rest => exact ⟨rfl, inv_resetUnit (inv_withEvents h rest)⟩

/-- Settles O20: each effect of a step keeps the invariant. -/
theorem everyStepKeepsTheInvariant : Obligations.EveryStepKeepsTheInvariant :=
  fun _ _ h hstep => (step_keeps_inv h hstep).2

/-! ### Reset and the states reachable from it -/

/-- Settles O13: the registers field by field, and BUF as `forget` leaves it. -/
theorem resetStateHoldsTheResetValues : Obligations.ResetStateHoldsTheResetValues :=
  fun n => ⟨rfl, rfl, rfl, rfl, rfl, rfl, readByte_forget ⟨n, []⟩⟩

theorem inv_resetWith {n : Nat} (h₁ : 1 ≤ n) (h₂ : n ≤ 2 ^ 61) (es : List HostEvent) :
    ({ State.resetWith n with events := es } : State).Inv :=
  inv_of_cleared ⟨h₁, h₂⟩ rfl rfl ⟨rfl, rfl, rfl⟩ rfl

/-- Settles O21: the unit is cleared at reset, whatever its size and the host's events. -/
theorem resetStateMeetsTheInvariant : Obligations.ResetStateMeetsTheInvariant :=
  ⟨fun _ es h₁ h₂ => inv_resetWith h₁ h₂ es, inv_resetWith (n := Config.resetBufBytes) (by decide) (by decide) []⟩

/-- Everything a run of one step and more can answer with a next state. -/
theorem run_succ_eq_next {M : Host.Core} {k : Nat} {s t : M.State} :
    M.run (k + 1) s = .next t ↔ ∃ s', M.step s = .next s' ∧ M.run k s' = .next t := by
  rw [Host.Core.run]
  cases M.step s <;> simp

/-- A property every step keeps holds after every run from a state that has it. -/
theorem run_keeps {M : Host.Core} {P : M.State → Prop} (hP : ∀ s t, P s → M.step s = .next t → P t) :
    ∀ (k : Nat) (s t : M.State), P s → M.run k s = .next t → P t
  | 0, s, t, hs, h => by
    obtain rfl : s = t := Host.Outcome.next.inj h
    exact hs
  | k + 1, s, t, hs, h => by
    obtain ⟨s', hstep, hrun⟩ := run_succ_eq_next.1 h
    exact run_keeps hP k s' t (hP s s' hs hstep) hrun

/-- The code of `CAUSE` is 0 for no cause only (R156). -/
theorem causeCode_ne_zero (c : Cause) : causeCode c ≠ 0 ↔ c ≠ .none := by
  cases c <;> decide

/-- `STATE` has one of its three codes (R36 (a)). -/
theorem unitStateCode_cases (u : UnitState) : unitStateCode u = 0 ∨ unitStateCode u = 1 ∨ unitStateCode u = 2 := by
  cases u <;> decide

/-- Settles O22: a run from reset keeps the size of BUF and the invariant, and the invariant is R36. -/
theorem reachableStatesMeetRuleThirtySix : Obligations.ReachableStatesMeetRuleThirtySix := by
  intro n es k t h₁ h₂ hrun
  obtain ⟨hn, ⟨_, _, hempty, hfits, hcause, hregs, hbytes, _⟩⟩ :=
    run_keeps (M := Sys2Proof.core) (P := fun s : State => s.buf.size = n ∧ s.Inv)
      (fun s t hs hstep => ⟨(step_keeps_inv hs.2 hstep).1.trans hs.1, (step_keeps_inv hs.2 hstep).2⟩)
      k _ t ⟨rfl, inv_resetWith h₁ h₂ es⟩ hrun
  refine ⟨unitStateCode_cases _, hempty, fun hu => ?_, hcause.trans (causeCode_ne_zero _).symm, hregs,
    fun hu a ha => ?_⟩
  · rw [← hn]; exact hfits hu
  · exact ⟨_, readByte_of_covers ⟨(hfits hu).2, hbytes hu⟩ (Nat.lt_succ_of_le ha)⟩

end Sys2Proof.Proofs
end

section
/-! PROOFS. Padding and guard bits (`10_state.md` R29): which commands leave them alone, and which do not depend on them. -/

namespace Sys2Proof.Proofs

open Sys2Proof.Machine Sys2Proof.Laws

/-- Settles O57: SET, REVERSE and ROTATE are array updates, and the other commands leave BUF as it is. -/
theorem paddingAndGuardAreKept : Obligations.PaddingAndGuardAreKept := by
  intro s t i hs h hcreate hdestroy hset64 j hj
  have hc := covers_of_readyInv hs
  cases exec_effect h with
  | ignored | raised | answered | noHandle => rfl
  | created n => exact absurd rfl (hcreate n)
  | destroyed => exact absurd rfl hdestroy
  | wroteWindow a w => exact absurd rfl (hset64 a w)
  | wroteBit a v m hu hr hm => exact (setbit_updates s v hr).keeps_bit hc hm hj
  | reversed a b m hu hb hr hm => exact (reverse_updates s hr).keeps_bit hc hm hj
  | rotated a b n r m hu hb hr hn hn0 hm =>
    exact (threeReversals_updates s (hn ▸ rotateAmount_lt r hb) hr).keeps_bit hc hm hj

/-! ### Two states that differ in padding and guard bits -/

/-- Two states alike in all a host can read of them: the registers, the responses so far and the first `n` bits of BUF. -/
structure Alike (n : Nat) (s₁ s₂ : State) : Prop where
  unit : s₁.unit = s₂.unit
  bitCount : s₁.bitCount = s₂.bitCount
  registers : sameFaultRegisters s₁ s₂
  responses : s₁.responses = s₂.responses
  bits : ∀ j, j < n → s₁.buf.bit j = s₂.buf.bit j

/-- Two results that are both a next state, and alike ones. -/
def AlikeNext (n : Nat) (r₁ r₂ : Result) : Prop := ∃ t₁ t₂, r₁ = .next t₁ ∧ r₂ = .next t₂ ∧ Alike n t₁ t₂

/-- Two legal states READY that are alike up to the end of their arrays. -/
structure Twins (s₁ s₂ : State) : Prop where
  left : s₁.ReadyInv
  right : s₂.ReadyInv
  alike : Alike s₁.bitCount.toNat s₁ s₂

theorem alike_respond {n : Nat} {s₁ s₂ : State} (h : Alike n s₁ s₂) (st : Status) (v : Word) :
    Alike n (respond st v s₁) (respond st v s₂) := by
  obtain ⟨hu, hb, ⟨hc, hf, ha⟩, hr, hbits⟩ := h
  exact ⟨hu, hb, ⟨hc, hf, ha⟩, by simp [hu, hc, hf, hr], hbits⟩

theorem alike_raiseFault {n : Nat} {s₁ s₂ : State} (h : Alike n s₁ s₂) (c : Cause) (cmd : Command) :
    Alike n (raiseFault c cmd s₁) (raiseFault c cmd s₂) :=
  ⟨rfl, h.bitCount, ⟨rfl, rfl, rfl⟩, by simp [h.responses], h.bits⟩

theorem alike_withBuf {n : Nat} {s₁ s₂ : State} {m₁ m₂ : Memory} (h : Alike n s₁ s₂)
    (hm : ∀ j, j < n → m₁.bit j = m₂.bit j) : Alike n { s₁ with buf := m₁ } { s₂ with buf := m₂ } :=
  ⟨h.unit, h.bitCount, h.registers, h.responses, hm⟩

section Twins
variable {s₁ s₂ : State} (h : Twins s₁ s₂)
include h

theorem Twins.nb_eq : s₁.nb = s₂.nb := by simp only [State.nb, h.alike.bitCount]

theorem Twins.covers_right : s₂.buf.Covers (s₁.nb + 1) := by
  rw [h.nb_eq]
  exact covers_of_readyInv h.right

theorem Twins.indexInRange_eq (i : Nat) : s₂.indexInRange i = s₁.indexInRange i := by
  simp only [State.indexInRange, h.alike.bitCount]

theorem Twins.rangeInBound_eq (a b : Nat) : s₂.rangeInBound a b = s₁.rangeInBound a b := by
  simp only [State.rangeInBound, h.alike.bitCount]

/-- Both complete with the same answer. -/
theorem Twins.answer (v : Word) :
    AlikeNext s₁.bitCount.toNat (finish (.ok (respond .ok v s₁))) (finish (.ok (respond .ok v s₂))) :=
  ⟨_, _, rfl, rfl, alike_respond h.alike _ _⟩

/-- Both raise the same fault. -/
theorem Twins.raise (c : Cause) (i : Instr) :
    AlikeNext s₁.bitCount.toNat (finish (.ok (raiseFault c (encode i) s₁))) (finish (.ok (raiseFault c (encode i) s₂))) :=
  ⟨_, _, rfl, rfl, alike_raiseFault h.alike _ _⟩

/-- Both complete an array update. -/
theorem Twins.update {op : Memory → Except Fault Memory} (hop : ArrayUpdate (s₁.nb + 1) s₁.bitCount.toNat op) :
    AlikeNext s₁.bitCount.toNat (finish (do let m ← op s₁.buf; .ok (respond .ok 0 { s₁ with buf := m })))
      (finish (do let m ← op s₂.buf; .ok (respond .ok 0 { s₂ with buf := m }))) := by
  obtain ⟨m₁, m₂, hm₁, hm₂, hbits⟩ :=
    hop.agree (covers_of_readyInv h.left) h.covers_right (bitCount_div_lt_nb s₁) h.alike.bits
  rw [hm₁, hm₂]
  exact ⟨_, _, rfl, rfl, alike_respond (alike_withBuf h.alike hbits) _ _⟩

theorem Twins.size : AlikeNext s₁.bitCount.toNat (exec .size s₁) (exec .size s₂) := by
  simp only [exec, execSize, whenReady_of_ready h.left.1, whenReady_of_ready h.right.1, ← h.alike.bitCount]
  exact h.answer _

theorem Twins.get (a : Nat) : AlikeNext s₁.bitCount.toNat (exec (.get a) s₁) (exec (.get a) s₂) := by
  simp only [exec, execGet, whenReady_of_ready h.left.1, whenReady_of_ready h.right.1, h.indexInRange_eq]
  split
  · next hr =>
    have ha := indexInRange_eq_true.1 hr
    have hbyte : a / 8 < s₁.nb + 1 := by have := bitCount_div_lt_nb s₁; omega
    rw [← h.alike.bits a ha, bit_of_covers (covers_of_readyInv h.left) hbyte]
    exact h.answer _
  · exact h.raise _ _

theorem Twins.set (a : Nat) (v : Bool) : AlikeNext s₁.bitCount.toNat (exec (.set a v) s₁) (exec (.set a v) s₂) := by
  simp only [exec, execSet, whenReady_of_ready h.left.1, whenReady_of_ready h.right.1, h.indexInRange_eq]
  split
  · next hr => exact h.update (setbit_updates s₁ v (indexInRange_eq_true.1 hr))
  · exact h.raise _ _

theorem Twins.reverse (a b : Nat) :
    AlikeNext s₁.bitCount.toNat (exec (.reverse a b) s₁) (exec (.reverse a b) s₂) := by
  simp only [exec, execReverse, whenReady_of_ready h.left.1, whenReady_of_ready h.right.1, h.rangeInBound_eq]
  split
  · exact h.answer _
  · split
    · next hr => exact h.update (reverse_updates s₁ (rangeInBound_eq_true.1 hr))
    · exact h.raise _ _

theorem Twins.rotate (a b : Nat) (r : Int) :
    AlikeNext s₁.bitCount.toNat (exec (.rotate a b r) s₁) (exec (.rotate a b r) s₂) := by
  simp only [exec, execRotate, whenReady_of_ready h.left.1, whenReady_of_ready h.right.1, h.rangeInBound_eq]
  split
  · exact h.answer _
  · next hb =>
    simp only [floorMod, if_neg hb]
    split
    · next hr =>
      split
      · exact h.answer _
      · exact h.update (threeReversals_updates s₁ (rotateAmount_lt r (by omega)) (rangeInBound_eq_true.1 hr))
    · exact h.raise _ _

end Twins

/-- Legal states READY have the same `STATE` and fault registers, so agreeing on the rest makes them twins. -/
theorem twins_of_agree {s₁ s₂ : State} (h₁ : s₁.ReadyInv) (h₂ : s₂.ReadyInv) (hb : s₁.bitCount = s₂.bitCount)
    (hr : s₁.responses = s₂.responses) (hbits : ∀ j, j < s₁.bitCount.toNat → s₁.buf.bit j = s₂.buf.bit j) :
    Twins s₁ s₂ := by
  obtain ⟨hc₁, hf₁, ha₁⟩ := faultRegisters_of_not_faulted h₁.2 (by simp [h₁.1])
  obtain ⟨hc₂, hf₂, ha₂⟩ := faultRegisters_of_not_faulted h₂.2 (by simp [h₂.1])
  exact ⟨h₁, h₂, h₁.1.trans h₂.1.symm, hb, ⟨hc₂.trans hc₁.symm, hf₂.trans hf₁.symm, ha₂.trans ha₁.symm⟩, hr, hbits⟩

/-- Settles O59: each of the five commands takes twins to alike states. -/
theorem resultsDoNotDependOnPadding : Obligations.ResultsDoNotDependOnPadding := by
  intro s₁ s₂ i h₁ h₂ hb hr hbits hi
  have twins := twins_of_agree h₁ h₂ hb hr hbits
  have alike : AlikeNext s₁.bitCount.toNat (exec i s₁) (exec i s₂) := by
    rcases hi with rfl | ⟨a, rfl⟩ | ⟨a, v, rfl⟩ | ⟨a, b, rfl⟩ | ⟨a, b, c, rfl⟩
    · exact twins.size
    · exact twins.get a
    · exact twins.set a v
    · exact twins.reverse a b
    · exact twins.rotate a b c
  obtain ⟨t₁, t₂, e₁, e₂, ⟨hunit, hcount, hregs, hresp, hbits'⟩⟩ := alike
  exact ⟨t₁, t₂, e₁, e₂, hresp, hunit, hcount, hregs, hbits'⟩

end Sys2Proof.Proofs
end

section
/-! PROOFS. What repeating a command does, and what no command reaches (`20_memory.md` R47, R48, R51). -/

namespace Sys2Proof.Proofs

open Sys2Proof.Machine Sys2Proof.Laws

/-- Settles O14: with no event left, the step is the idle one. -/
theorem idleUnitKeepsItsState : Obligations.IdleUnitKeepsItsState :=
  fun _ he => step_eq_next.2 (Or.inl ⟨he, rfl⟩)

/-! ### Bytes above the guard byte -/

/-- A byte from `n` on reads as before an operation over the bytes below `n`. -/
theorem readByte_above_of_evolves {n a : Nat} {m m' : Memory} (he : Memory.Evolves n m m') (ha : n ≤ a) :
    m'.readByte a = m.readByte a := by
  simp [Memory.readByte, he.size_eq, he.above a ha]

/-- In a legal state READY every command but DESTROY works within the bytes `0 .. NB` (R47). -/
theorem effect_evolves {s t : State} {i : Instr} (hs : s.ReadyInv) (heff : Effect s i t) (hd : i ≠ .destroy) :
    Memory.Evolves (s.nb + 1) s.buf t.buf := by
  have hc := covers_of_readyInv hs
  cases heff with
  | ignored | raised | answered | noHandle => exact evolves_refl hc
  | created n m hu => exact absurd (hs.1.symm.trans hu) (by decide)
  | destroyed => exact absurd rfl hd
  | wroteBit a v m hu hr hm => exact (setbit_updates s v hr).evolves hc hm
  | wroteWindow a w m hu hr hm => exact set64_evolves hs hr hm
  | reversed a b m hu hb hr hm => exact (reverse_updates s hr).evolves hc hm
  | rotated a b n r m hu hb hr hn hn0 hm =>
    exact (threeReversals_updates s (hn ▸ rotateAmount_lt r hb) hr).evolves hc hm

/-- Settles O58: every command keeps the size, and all but DESTROY work within the bytes `0 .. NB`. -/
theorem unreachableBytesAreKept : Obligations.UnreachableBytesAreKept := by
  intro s t i hs h
  have heff := exec_effect h
  exact ⟨(effect_keeps_inv hs.2 heff).1, fun hd a ha => readByte_above_of_evolves (effect_evolves hs heff hd) ha⟩

/-! ### Repeating a read -/

/-- `i` answers `r` and does nothing else, in `s` and in every state that differs from `s` in the responses so far only. -/
def OnlyAnswers (i : Instr) (s : State) (r : Response) : Prop :=
  ∀ rs, exec i { s with responses := rs } = .next (({ s with responses := rs } : State).answering r)

/-- A command that only answers has no side effect, and repeating it gives the same response. -/
theorem OnlyAnswers.repeats {i : Instr} {s t : State} {r : Response} (hr : OnlyAnswers i s r)
    (h : exec i s = .next t) :
    sameArchitecture s t ∧ ∃ r, t = s.answering r ∧ exec i t = .next (t.answering r) := by
  obtain rfl : s.answering r = t := Host.Outcome.next.inj ((hr s.responses).symm.trans h)
  exact ⟨⟨rfl, rfl, ⟨rfl, rfl, rfl⟩, rfl⟩, r, rfl, hr (s.responses ++ [r])⟩

theorem onlyAnswers_of_faulted (i : Instr) {s : State} (hf : s.unit = .faulted) :
    OnlyAnswers i s ⟨.faulted, s.cause, s.fop, s.unit, s.farg⟩ :=
  fun rs => exec_of_faulted i (s := { s with responses := rs }) hf

theorem onlyAnswers_size {s : State} (hu : s.unit = .ready) :
    OnlyAnswers .size s ⟨.ok, s.cause, s.fop, s.unit, s.bitCount⟩ :=
  fun rs => whenReady_of_ready (s := { s with responses := rs }) hu

theorem onlyAnswers_status {s : State} (hf : s.unit ≠ .faulted) :
    OnlyAnswers .status s ⟨.ok, s.cause, s.fop, s.unit, s.farg⟩ :=
  fun rs => whenNotFaulted_of_not_faulted (s := { s with responses := rs }) hf

theorem onlyAnswers_get {s : State} {a : Nat} {v : Bool} (hu : s.unit = .ready) (hr : s.indexInRange a = true)
    (hv : s.buf.bit a = .ok v) : OnlyAnswers (.get a) s ⟨.ok, s.cause, s.fop, s.unit, boolWord v⟩ := by
  intro rs
  have hr' : ({ s with responses := rs } : State).indexInRange a = true := hr
  simp only [exec, execGet, whenReady_of_ready (s := { s with responses := rs }) hu, if_pos hr', hv, ok_bind, finish_ok,
    respond]

theorem onlyAnswers_get64 {s : State} {a : Nat} {w : Word} (hu : s.unit = .ready) (hr : s.wideInBound a = true)
    (hw : s.buf.get64 a = .ok w) : OnlyAnswers (.get64 a) s ⟨.ok, s.cause, s.fop, s.unit, w⟩ := by
  intro rs
  have hr' : ({ s with responses := rs } : State).wideInBound a = true := hr
  simp only [exec, execGet64, whenReady_of_ready (s := { s with responses := rs }) hu, if_pos hr', hw, ok_bind, finish_ok,
    respond]

/-- An array command that leaves `STATE` as it was, outside FAULTED, found an array and followed its own rule. -/
theorem ready_of_unit_kept {i : Instr} {s t : State} {rule : Except Fault State} (hf : s.unit ≠ .faulted)
    (h : whenReady i s rule = .next t) (hu : t.unit = s.unit) : s.unit = .ready ∧ rule = .ok t := by
  rcases whenReady_eq_next.1 h with ⟨hs, _⟩ | ⟨_, rfl⟩ | hrule
  · exact absurd hs hf
  · exact absurd hu.symm hf
  · exact hrule

/-- A rule that checks a precondition, reads and answers, and leaves `STATE` as it was outside FAULTED, passed its check
and completed its read. -/
theorem read_of_unit_kept {α : Type} {s t : State} {c : Bool} {x : Except Fault α} {word : α → Word} {cause : Cause}
    {cmd : Command} (hf : s.unit ≠ .faulted)
    (h : (if c then do let v ← x; .ok (respond .ok (word v) s) else .ok (raiseFault cause cmd s)) = Except.ok t)
    (hu : t.unit = s.unit) : c = true ∧ ∃ v, x = .ok v := by
  split at h
  · next hc =>
    obtain ⟨v, hv, _⟩ := bind_eq_ok.1 h
    exact ⟨hc, v, hv⟩
  · obtain rfl := Except.ok.inj h
    exact absurd hu.symm hf

/-- Settles O42: each of the four only answers, in FAULTED as every command does and elsewhere by its own rule. -/
theorem readsHaveNoSideEffect : Obligations.ReadsHaveNoSideEffect := by
  intro s t i hi h hu
  by_cases hf : s.unit = .faulted
  · exact (onlyAnswers_of_faulted i hf).repeats h
  · rcases hi with rfl | rfl | ⟨a, rfl⟩ | ⟨a, rfl⟩
    · obtain ⟨hready, _⟩ := ready_of_unit_kept hf h hu
      exact (onlyAnswers_size hready).repeats h
    · exact (onlyAnswers_status hf).repeats h
    · obtain ⟨hready, hrule⟩ := ready_of_unit_kept hf h hu
      obtain ⟨hr, v, hv⟩ := read_of_unit_kept hf hrule hu
      exact (onlyAnswers_get hready hr hv).repeats h
    · obtain ⟨hready, hrule⟩ := ready_of_unit_kept hf h hu
      obtain ⟨hr, w, hw⟩ := read_of_unit_kept hf hrule hu
      exact (onlyAnswers_get64 hready hr hw).repeats h

/-! ### Repeating a write -/

/-- An operation over BUF whose map on bits is idempotent leaves what it left when it is repeated: equal bits in canonical
form are equal data. -/
theorem repeat_of_idempotent {n : Nat} {op : Memory → Except Fault Memory} {F : (Nat → Bool) → Nat → Bool}
    (hspec : ∀ m : Memory, m.Covers n → ∃ m', op m = .ok m' ∧ Memory.Evolves n m m' ∧ ∀ j, m'.bitAt j = F m.bitAt j)
    (hF : ∀ f j, F (F f) j = F f j) {m m' : Memory} (hc : m.Covers n) (hwf : m.wf = true) (hm : op m = .ok m') :
    op m' = .ok m' := by
  obtain ⟨he, hb⟩ := of_completes (hspec m hc) hm
  obtain ⟨m'', hm', he', hb'⟩ := hspec m' he.covers
  have hbits : m'.bitAt = F m.bitAt := funext hb
  have hsame : m'' = m' := eq_of_evolves he.covers (he.wf hwf) he' fun j => by rw [hb' j, hbits, hF]
  rw [hm', hsame]

theorem setbit_repeat {n i : Nat} {v : Bool} {m m' : Memory} (hc : m.Covers n) (hwf : m.wf = true) (hi : i / 8 < n)
    (hm : m.setbit i v = .ok m') : m'.setbit i v = .ok m' :=
  repeat_of_idempotent (F := fun f j => if j = i then v else f j) (fun _ hc => setbit_spec v hc hi)
    (fun f j => by by_cases hj : j = i <;> simp [hj]) hc hwf hm

theorem set64_repeat {n i : Nat} {w : Word} {m m' : Memory} (hc : m.Covers n) (hwf : m.wf = true) (hi : i / 8 + 8 < n)
    (hm : m.set64 i w = .ok m') : m'.set64 i w = .ok m' :=
  repeat_of_idempotent (F := fun f j => if i ≤ j ∧ j < i + 64 then w.getLsbD (j - i) else f j)
    (fun _ hc => set64_spec w hc hi) (fun f j => by by_cases hj : i ≤ j ∧ j < i + 64 <;> simp [hj]) hc hwf hm

/-- SET in range in state READY (R82). -/
theorem exec_set_of_setbit {s : State} {a : Nat} {v : Bool} {m : Memory} (hu : s.unit = .ready)
    (hr : a < s.bitCount.toNat) (hm : s.buf.setbit a v = .ok m) :
    exec (.set a v) s = .next (respond .ok 0 { s with buf := m }) := by
  simp only [exec, execSet, whenReady_of_ready hu, if_pos (indexInRange_eq_true.2 hr), hm, ok_bind, finish_ok]

/-- SET64 in bound in state READY (R92). -/
theorem exec_set64_of_set64 {s : State} {a : Nat} {w : Word} {m : Memory} (hu : s.unit = .ready)
    (hr : a / 8 + 8 ≤ s.nb) (hm : s.buf.set64 a w = .ok m) :
    exec (.set64 a w) s = .next (respond .ok 0 { s with buf := m }) := by
  simp only [exec, execSet64, whenReady_of_ready hu, if_pos (wideInBound_eq_true.2 hr), hm, ok_bind, finish_ok]

/-- A command in FAULTED is answered and does nothing else (R159). -/
theorem exec_responds_of_faulted (i : Instr) {s : State} (hf : s.unit = .faulted) :
    ∃ st v, exec i s = .next (respond st v s) :=
  ⟨_, _, exec_of_faulted i hf⟩

/-- The second of two equal SETs is answered and does nothing else. -/
theorem exec_set_repeat {s t : State} {a : Nat} {v : Bool} (hs : s.Inv) (h : exec (.set a v) s = .next t) :
    ∃ st r, exec (.set a v) t = .next (respond st r t) := by
  cases exec_effect h with
  | ignored _ hf => exact exec_responds_of_faulted _ hf
  | raised => exact exec_responds_of_faulted _ rfl
  | answered _ _ _ _ _ hw => exact absurd rfl (hw.1 a v)
  | wroteBit _ _ m hu hr hm =>
    have hi : a / 8 < s.nb + 1 := by have := bitCount_div_lt_nb s; omega
    have hm' : m.setbit a v = .ok m := setbit_repeat (covers_of_readyInv ⟨hu, hs⟩) hs.2.1 hi hm
    exact ⟨_, _, exec_set_of_setbit (s := respond .ok 0 { s with buf := m }) hu hr hm'⟩

/-- The second of two equal SET64s is answered and does nothing else. -/
theorem exec_set64_repeat {s t : State} {a : Nat} {w : Word} (hs : s.Inv) (h : exec (.set64 a w) s = .next t) :
    ∃ st r, exec (.set64 a w) t = .next (respond st r t) := by
  cases exec_effect h with
  | ignored _ hf => exact exec_responds_of_faulted _ hf
  | raised => exact exec_responds_of_faulted _ rfl
  | answered _ _ _ _ _ hw => exact absurd rfl (hw.2 a w)
  | wroteWindow _ _ m hu hr hm =>
    have hm' : m.set64 a w = .ok m := set64_repeat (covers_of_readyInv ⟨hu, hs⟩) hs.2.1 (by omega) hm
    exact ⟨_, _, exec_set64_of_set64 (s := respond .ok 0 { s with buf := m }) hu hr hm'⟩

/-- Settles O43: the write of each is idempotent on BUF, and a fault leaves a unit that ignores the second command. -/
theorem repeatedWriteChangesNothing : Obligations.RepeatedWriteChangesNothing := by
  intro s t u i hs hi h h'
  have hagain : ∃ st v, exec i t = .next (respond st v t) := by
    rcases hi with ⟨a, v, rfl⟩ | ⟨a, w, rfl⟩
    · exact exec_set_repeat hs h
    · exact exec_set64_repeat hs h
  obtain ⟨st, v, hrespond⟩ := hagain
  obtain rfl := Host.Outcome.next.inj (hrespond.symm.trans h')
  exact ⟨rfl, rfl, ⟨rfl, rfl, rfl⟩, rfl⟩

end Sys2Proof.Proofs
end

section
/-! PROOFS. The decoder of `30_encoding.md` R70, once for every row of R62: the case split over the opcodes, which fields
decode to which command, which fields are legal (R66), and which test rejects the others. -/

namespace Sys2Proof.Proofs

open Sys2Proof.Machine Sys2Proof.Laws

/-! ### The opcodes -/

/-- A byte no row of R62 has: 0x00 or 0x0B..0xFF (R66). -/
def UnknownOpcode (op : Byte) : Prop := op.toNat = 0 ∨ 0x0B ≤ op.toNat

theorem UnknownOpcode.ne_row {op : Byte} (h : UnknownOpcode op) {n : Nat} (hlo : 1 ≤ n) (hhi : n ≤ 10) :
    op.toNat ≠ n := by
  unfold UnknownOpcode at h
  omega

/-- An opcode is one of the ten of R62 or unknown. -/
theorem opcode_cases {P : Byte → Prop} (create : P 0x01) (destroy : P 0x02) (size : P 0x03) (get : P 0x04) (set : P 0x05)
    (get64 : P 0x06) (set64 : P 0x07) (reverse : P 0x08) (rotate : P 0x09) (status : P 0x0A)
    (unknown : ∀ op, UnknownOpcode op → P op) (op : Byte) : P op := by
  by_cases h : UnknownOpcode op
  · exact unknown op h
  · unfold UnknownOpcode at h
    have hop : op = BitVec.ofNat 8 op.toNat := by simp
    have hlo : 1 ≤ op.toNat := by omega
    have hhi : op.toNat ≤ 10 := by omega
    rw [hop]
    interval_cases op.toNat <;> assumption

/-- R70 step 2 on a byte no row has. -/
theorem decodeFields_of_unknownOpcode {op : Byte} (h : UnknownOpcode op) (a b c : Word) :
    decodeFields op a b c = .error .unknownOpcode := by
  unfold decodeFields
  split
  case h_11 => rfl
  all_goals exact absurd ‹op.toNat = _› (h.ne_row (by decide) (by decide))

/-! ### The fields a command is read from -/

/-- A test of R70 that ends in a rejection: the command is read only if the test holds. -/
theorem ite_error_eq_ok {p : Prop} [Decidable p] {x : Except Illegal Instr} {e : Illegal} {i : Instr} :
    (if p then x else .error e) = .ok i ↔ p ∧ x = .ok i := by
  split <;> simp [*]

theorem fitsUnsigned_toNat (a : Word) : fitsUnsigned a.toNat = true := decide_eq_true a.isLt

theorem toInt_bounds (c : Word) : -(2 ^ 63) ≤ c.toInt ∧ c.toInt < 2 ^ 63 := ⟨BitVec.le_toInt c, BitVec.toInt_lt⟩

theorem fitsSigned_toInt (c : Word) : fitsSigned c.toInt = true := by
  rw [fitsSigned, Bool.and_eq_true, decide_eq_true_eq, decide_eq_true_eq]
  exact toInt_bounds c

theorem toNat_ofNat_of_fitsUnsigned {n : Nat} (h : fitsUnsigned n = true) : (BitVec.ofNat 64 n).toNat = n :=
  Nat.mod_eq_of_lt (of_decide_eq_true h)

theorem toInt_ofInt_of_fitsSigned {z : Int} (h : fitsSigned z = true) : (BitVec.ofInt 64 z).toInt = z := by
  rw [fitsSigned, Bool.and_eq_true, decide_eq_true_eq, decide_eq_true_eq] at h
  exact BitVec.toInt_ofInt_eq_self (by decide) h.1 h.2

theorem eq_zero_or_one_of_toNat_le_one {b : Word} (h : b.toNat ≤ 1) : b = 0 ∨ b = 1 := by
  have hb : b = BitVec.ofNat 64 b.toNat := by simp
  rw [hb]
  interval_cases b.toNat
  · exact Or.inl rfl
  · exact Or.inr rfl

/-- Bit 0 of a field `B` of 0 or 1 is the whole field (R67). -/
theorem setField_of_le_one {b : Word} (h : b.toNat ≤ 1) : (if b.getLsbD 0 then 1 else 0 : Word) = b := by
  obtain rfl | rfl := eq_zero_or_one_of_toNat_le_one h
  · rfl
  · rfl

/-- What is decoded is well formed, and has the fields it was decoded from. -/
theorem decodeFields_sound {op : Byte} {a b c : Word} {i : Instr} (h : decodeFields op a b c = .ok i) :
    i.WellFormed ∧ opcodeOf i = op ∧ fieldA i = a ∧ fieldB i = b ∧ fieldC i = c := by
  have ha : BitVec.ofNat 64 a.toNat = a := by simp
  have hb : BitVec.ofNat 64 b.toNat = b := by simp
  induction op using opcode_cases with
  | create | get | get64 =>
    obtain ⟨⟨rfl, rfl⟩, ⟨⟩⟩ := ite_error_eq_ok.1 h
    exact ⟨fitsUnsigned_toNat a, rfl, ha, rfl, rfl⟩
  | destroy | size | status =>
    obtain ⟨⟨rfl, rfl, rfl⟩, ⟨⟩⟩ := ite_error_eq_ok.1 h
    exact ⟨rfl, rfl, rfl, rfl, rfl⟩
  | set =>
    obtain ⟨rfl, h⟩ := ite_error_eq_ok.1 h
    obtain ⟨hv, ⟨⟩⟩ := ite_error_eq_ok.1 h
    exact ⟨fitsUnsigned_toNat a, rfl, ha, setField_of_le_one hv, rfl⟩
  | set64 =>
    obtain ⟨rfl, ⟨⟩⟩ := ite_error_eq_ok.1 h
    exact ⟨fitsUnsigned_toNat a, rfl, ha, rfl, rfl⟩
  | reverse =>
    obtain ⟨rfl, ⟨⟩⟩ := ite_error_eq_ok.1 h
    exact ⟨Bool.and_eq_true_iff.2 ⟨fitsUnsigned_toNat a, fitsUnsigned_toNat b⟩, rfl, ha, hb, rfl⟩
  | rotate =>
    obtain rfl : .rotate a.toNat b.toNat c.toInt = i := Except.ok.inj h
    refine ⟨?_, rfl, ha, hb, BitVec.ofInt_toInt⟩
    simp only [Instr.WellFormed, Instr.wellFormed, fitsUnsigned_toNat, fitsSigned_toInt, Bool.and_self]
  | unknown op hop => cases (decodeFields_of_unknownOpcode hop a b c).symm.trans h

/-- The fields of a well-formed command decode to it. -/
theorem decodeFields_fields {i : Instr} (h : i.WellFormed) :
    decodeFields (opcodeOf i) (fieldA i) (fieldB i) (fieldC i) = .ok i := by
  cases i with
  | create n | get n | get64 n => exact congrArg Except.ok (congrArg _ (toNat_ofNat_of_fitsUnsigned h))
  | destroy | size | status => rfl
  | set n v =>
    have hn : n < 2 ^ 64 := of_decide_eq_true h
    cases v <;> simpa [decodeFields, opcodeOf, fieldA, fieldB, fieldC] using hn
  | set64 n w => exact congrArg (fun m => Except.ok (Instr.set64 m w)) (toNat_ofNat_of_fitsUnsigned h)
  | reverse start len =>
    obtain ⟨hs, hl⟩ := Bool.and_eq_true_iff.1 h
    exact congrArg Except.ok (congrArg₂ Instr.reverse (toNat_ofNat_of_fitsUnsigned hs) (toNat_ofNat_of_fitsUnsigned hl))
  | rotate off len amt =>
    obtain ⟨hr, ha⟩ := Bool.and_eq_true_iff.1 h
    obtain ⟨ho, hl⟩ := Bool.and_eq_true_iff.1 hr
    change Except.ok (Instr.rotate (BitVec.ofNat 64 off).toNat (BitVec.ofNat 64 len).toNat (BitVec.ofInt 64 amt).toInt) = _
    rw [toNat_ofNat_of_fitsUnsigned ho, toNat_ofNat_of_fitsUnsigned hl, toInt_ofInt_of_fitsSigned ha]

/-- What is decoded passed R70 step 1, and its fields the later steps. -/
theorem decode_eq_ok {cmd : Command} {i : Instr} : decode cmd = .ok i ↔
    commandRsv cmd = 0 ∧ decodeFields (commandOp cmd) (commandA cmd) (commandB cmd) (commandC cmd) = .ok i :=
  ite_error_eq_ok

theorem opcodeOf_of_decode {cmd : Command} {i : Instr} (h : decode cmd = .ok i) : opcodeOf i = commandOp cmd := by
  obtain ⟨_, hfields⟩ := decode_eq_ok.1 h
  obtain ⟨_, hop, _⟩ := decodeFields_sound hfields
  exact hop

/-! ### Which fields are legal -/

/-- The fields of a command whose reserved bits are 0 are legal (R66): a row has the opcode, the operand fields it does not
use are 0, and SET's value is 0 or 1. -/
def LegalFields (op : Byte) (a b c : Word) : Prop :=
  ¬ UnknownOpcode op ∧
    (op.toNat ∈ [0x02, 0x03, 0x0A] → a = 0) ∧
    (op.toNat ∈ [0x01, 0x02, 0x03, 0x04, 0x06, 0x0A] → b = 0) ∧
    (op.toNat ≠ 0x09 → c = 0) ∧
    (op.toNat = 0x05 → b.toNat ≤ 1)

/-- Exactly the legal fields decode to a command. -/
theorem exists_decodeFields_eq_ok {op : Byte} {a b c : Word} :
    (∃ i, decodeFields op a b c = .ok i) ↔ LegalFields op a b c := by
  unfold LegalFields
  induction op using opcode_cases with
  | create | destroy | size | get | set | get64 | set64 | reverse | status =>
    simp [decodeFields, UnknownOpcode, ite_error_eq_ok]
  | rotate => simp [decodeFields, UnknownOpcode]
  | unknown op hop => simp [decodeFields_of_unknownOpcode hop, hop]

theorem exists_decode_eq_ok {cmd : Command} :
    (∃ i, decode cmd = .ok i) ↔
      commandRsv cmd = 0 ∧ LegalFields (commandOp cmd) (commandA cmd) (commandB cmd) (commandC cmd) := by
  simp only [decode_eq_ok, exists_and_left, exists_decodeFields_eq_ok]

/-! ### The tests in their order -/

/-- A test of R70: it rejects where it fails, and otherwise the later tests do. -/
theorem ite_error_eq_error {p : Prop} [Decidable p] {x : Except Illegal Instr} {e e' : Illegal} :
    (if p then x else .error e) = .error e' ↔ (p ∧ x = .error e') ∨ (¬ p ∧ e = e') := by
  split <;> simp [*]

/-- R70 step 1, then the tests of steps 2 to 4. -/
theorem decode_eq_error {cmd : Command} {e : Illegal} :
    decode cmd = .error e ↔
      (commandRsv cmd = 0 ∧ decodeFields (commandOp cmd) (commandA cmd) (commandB cmd) (commandC cmd) = .error e) ∨
        (commandRsv cmd ≠ 0 ∧ .reservedBits = e) :=
  ite_error_eq_error

theorem decodeFields_ne_reservedBits {op : Byte} {a b c : Word} : decodeFields op a b c ≠ .error .reservedBits := by
  induction op using opcode_cases with
  | create | destroy | size | get | set | get64 | set64 | reverse | status =>
    simp [decodeFields, ite_error_eq_error]
  | rotate => simp [decodeFields]
  | unknown op hop => simp [decodeFields_of_unknownOpcode hop]

theorem decodeFields_eq_unknownOpcode {op : Byte} {a b c : Word} :
    decodeFields op a b c = .error .unknownOpcode ↔ UnknownOpcode op := by
  induction op using opcode_cases with
  | create | destroy | size | get | set | get64 | set64 | reverse | status =>
    simp [decodeFields, UnknownOpcode, ite_error_eq_error]
  | rotate => simp [decodeFields, UnknownOpcode]
  | unknown op hop => simp [decodeFields_of_unknownOpcode hop, hop]

theorem decodeFields_eq_unusedOperand {op : Byte} {a b c : Word} :
    decodeFields op a b c = .error .unusedOperand ↔
      (op.toNat ∈ [0x02, 0x03, 0x0A] ∧ ¬ (a = 0 ∧ b = 0 ∧ c = 0)) ∨
        (op.toNat ∈ [0x01, 0x04, 0x06] ∧ ¬ (b = 0 ∧ c = 0)) ∨ (op.toNat ∈ [0x05, 0x07, 0x08] ∧ c ≠ 0) := by
  induction op using opcode_cases with
  | create | destroy | size | get | set | get64 | set64 | reverse | status =>
    simp [decodeFields, ite_error_eq_error]
  | rotate => simp [decodeFields]
  | unknown op hop => simp [decodeFields_of_unknownOpcode hop, hop.ne_row]

theorem decodeFields_eq_setValue {op : Byte} {a b c : Word} :
    decodeFields op a b c = .error .setValue ↔ op.toNat = 0x05 ∧ c = 0 ∧ 1 < b.toNat := by
  induction op using opcode_cases with
  | create | destroy | size | get | set | get64 | set64 | reverse | status =>
    simp [decodeFields, ite_error_eq_error]
  | rotate => simp [decodeFields]
  | unknown op hop => simp [decodeFields_of_unknownOpcode hop, hop.ne_row]

end Sys2Proof.Proofs
end

section
/-! PROOFS. The patterns of `30_encoding.md` R63, read field by field: a pattern covers exactly the legal fields of its row. -/

namespace Sys2Proof.Proofs

open Sys2Proof.Machine Sys2Proof.Laws

/-! ### A command by its fields -/

theorem eq_commandOf_iff {cmd : Command} {c b a : Word} {op : Byte} :
    cmd = commandOf c b a op ↔
      commandOp cmd = op ∧ commandRsv cmd = 0 ∧ commandA cmd = a ∧ commandB cmd = b ∧ commandC cmd = c := by
  constructor
  · rintro rfl
    simp
  · rintro ⟨rfl, hrsv, rfl, rfl, rfl⟩
    exact (commandOf_fields hrsv).symm

section masking
variable (x y : Command)
@[simp] theorem commandOp_and : commandOp (x &&& y) = commandOp x &&& commandOp y := BitVec.extractLsb'_and
@[simp] theorem commandRsv_and : commandRsv (x &&& y) = commandRsv x &&& commandRsv y := BitVec.extractLsb'_and
@[simp] theorem commandA_and : commandA (x &&& y) = commandA x &&& commandA y := BitVec.extractLsb'_and
@[simp] theorem commandB_and : commandB (x &&& y) = commandB x &&& commandB y := BitVec.extractLsb'_and
@[simp] theorem commandC_and : commandC (x &&& y) = commandC x &&& commandC y := BitVec.extractLsb'_and
end masking

/-! ### A row of the table -/

/-- `p` is the pattern of opcode `op`: it fixes `op`, wants the reserved bits 0, and wants 0 of exactly those operand bits
that are 0 in legal fields. -/
structure PatternOf (op : Byte) (p : Pattern) : Prop where
  maskOp : commandOp p.mask = BitVec.allOnes 8
  maskRsv : commandRsv p.mask = BitVec.allOnes 56
  bits : p.bits = commandOf 0 0 0 op
  operands : ∀ a b c : Word,
    (a &&& commandA p.mask = 0 ∧ b &&& commandB p.mask = 0 ∧ c &&& commandC p.mask = 0) ↔ LegalFields op a b c
  mnemonic : ∀ i, mnemonicOf i = p.mnemonic ↔ opcodeOf i = op

theorem PatternOf.covers_iff_fields {op : Byte} {p : Pattern} (hp : PatternOf op p) (cmd : Command) :
    p.covers cmd = true ↔
      commandOp cmd = op ∧ commandRsv cmd = 0 ∧ LegalFields op (commandA cmd) (commandB cmd) (commandC cmd) := by
  rw [Pattern.covers, decide_eq_true_eq, hp.bits, eq_commandOf_iff, commandOp_and, commandRsv_and, commandA_and,
    commandB_and, commandC_and, hp.maskOp, hp.maskRsv, BitVec.and_allOnes, BitVec.and_allOnes, hp.operands]

/-- A pattern covers the commands that decode to its mnemonic (R63). -/
theorem PatternOf.covers_iff {op : Byte} {p : Pattern} (hp : PatternOf op p) (cmd : Command) :
    p.covers cmd = true ↔ ∃ i, decode cmd = .ok i ∧ mnemonicOf i = p.mnemonic := by
  rw [hp.covers_iff_fields]
  constructor
  · rintro ⟨rfl, hlegal⟩
    obtain ⟨i, hi⟩ := exists_decode_eq_ok.2 hlegal
    exact ⟨i, hi, (hp.mnemonic i).2 (opcodeOf_of_decode hi)⟩
  · rintro ⟨i, hi, hm⟩
    obtain rfl : commandOp cmd = op := (opcodeOf_of_decode hi).symm.trans ((hp.mnemonic i).1 hm)
    exact ⟨rfl, exists_decode_eq_ok.1 ⟨i, hi⟩⟩

/-! ### The ten rows -/

/-- The mask of a field a command does not use. -/
theorem and_fullMask (a : Word) : a &&& 0xFFFFFFFFFFFFFFFF#64 = a := BitVec.and_allOnes

/-- The mask of SET's field `B` leaves bit 0 free (R67). -/
theorem and_setMask_eq_zero (b : Word) : b &&& 0xFFFFFFFFFFFFFFFE#64 = 0#64 ↔ b.toNat ≤ 1 := by
  constructor
  · intro h
    have hb : b &&& 1 = b := by
      calc b &&& 1 = (b &&& 0xFFFFFFFFFFFFFFFE#64) ||| (b &&& 1) := by rw [h, BitVec.or_comm]; simp
        _ = b &&& BitVec.allOnes 64 := by rw [← BitVec.and_or_distrib_left]; rfl
        _ = b := BitVec.and_allOnes
    rw [← hb, BitVec.toNat_and]
    exact Nat.and_le_right
  · intro h
    obtain rfl | rfl := eq_zero_or_one_of_toNat_le_one h
    · rfl
    · rfl

/-- Each row of R63's table is the pattern of one opcode of R62. -/
theorem patternOf_of_mem : ∀ p ∈ patterns, ∃ op, PatternOf op p := by
  simp only [patterns, List.forall_mem_cons]
  refine ⟨⟨0x01, ?_⟩, ⟨0x02, ?_⟩, ⟨0x03, ?_⟩, ⟨0x04, ?_⟩, ⟨0x05, ?_⟩, ⟨0x06, ?_⟩, ⟨0x07, ?_⟩, ⟨0x08, ?_⟩, ⟨0x09, ?_⟩,
    ⟨0x0A, ?_⟩, by simp⟩
  all_goals
    refine ⟨by decide +kernel, by decide +kernel, by decide +kernel, fun a b c => ?operands, fun i => ?mnemonic⟩
    case mnemonic => cases i <;> simp [mnemonicOf, opcodeOf]
    case operands =>
      simp [commandA, commandB, commandC, LegalFields, UnknownOpcode, and_fullMask, and_setMask_eq_zero, and_comm]

/-- Each row of R63's table covers the commands of its mnemonic. -/
theorem covers_iff_of_mem {p : Pattern} (hp : p ∈ patterns) (cmd : Command) :
    p.covers cmd = true ↔ ∃ i, decode cmd = .ok i ∧ mnemonicOf i = p.mnemonic := by
  obtain ⟨op, hrow⟩ := patternOf_of_mem p hp
  exact hrow.covers_iff cmd

theorem patterns_mnemonic_injective {p q : Pattern} (hp : p ∈ patterns) (hq : q ∈ patterns)
    (h : p.mnemonic = q.mnemonic) : p = q :=
  have distinct : (patterns.map Pattern.mnemonic).Nodup := by decide
  List.inj_on_of_nodup_map distinct hp hq h

theorem exists_pattern_of_mnemonic (i : Instr) : ∃ p ∈ patterns, p.mnemonic = mnemonicOf i := by
  cases i <;> simp [patterns, mnemonicOf]

end Sys2Proof.Proofs
end

section
/-! PROOFS. The statements about the encoding of commands and responses (`30_encoding.md`). -/

namespace Sys2Proof.Proofs

open Sys2Proof.Machine Sys2Proof.Laws

/-- Settles O1: an encoded command has its own fields, and they decode to it. -/
theorem encodedCommandDecodesBack : Obligations.EncodedCommandDecodesBack :=
  fun _ hwf => (decode_commandOf _ _ _ _).trans (decodeFields_fields hwf)

/-- Settles O2: what is decoded has the CMD's own fields, and a CMD with reserved bits 0 is assembled from its fields. -/
theorem decodedCommandEncodesBack : Obligations.DecodedCommandEncodesBack := by
  intro cmd i h
  obtain ⟨hrsv, hfields⟩ := decode_eq_ok.1 h
  obtain ⟨hwf, hop, ha, hb, hc⟩ := decodeFields_sound hfields
  refine ⟨hwf, ?_⟩
  rw [encode, hop, ha, hb, hc, commandOf_fields hrsv]

/-- Settles O3: each pattern covers the commands of its mnemonic, and a CMD decodes to one command at most. -/
theorem commandMatchesItsPatternExactly : Obligations.CommandMatchesItsPatternExactly := by
  refine ⟨fun p hp cmd => covers_iff_of_mem hp cmd, exists_pattern_of_mnemonic, fun p hp q hq cmd hpc hqc => ?_⟩
  obtain ⟨i, hi, hip⟩ := (covers_iff_of_mem hp cmd).1 hpc
  obtain ⟨j, hj, hjq⟩ := (covers_iff_of_mem hq cmd).1 hqc
  obtain rfl : i = j := Except.ok.inj (hi.symm.trans hj)
  exact patterns_mnemonic_injective hp hq (hip.symm.trans hjq)

/-- Settles O5: the reserved bits are tested first, and the later tests reject the fields in their order. -/
theorem rejectionNamesFirstFailedTest : Obligations.RejectionNamesFirstFailedTest := by
  intro cmd
  simp only [decode_eq_error, decodeFields_ne_reservedBits, decodeFields_eq_unknownOpcode, decodeFields_eq_unusedOperand,
    decodeFields_eq_setValue, UnknownOpcode, reduceCtorEq, and_false, and_true, or_false, false_or]

/-- Settles O4: the illegal commands are those whose fields are not legal, and the step takes the illegal branch of R160. -/
theorem illegalCommandsAreTheseAndFault : Obligations.IllegalCommandsAreTheseAndFault := by
  refine ⟨fun cmd => ?_, fun s cmd rest he hu hillegal => ?_⟩
  · rw [← not_exists, exists_decode_eq_ok, LegalFields, UnknownOpcode]
    have hzero : commandOp cmd = 0 ↔ (commandOp cmd).toNat = 0 := BitVec.toNat_inj.symm
    simp only [hzero, not_and_or, not_not, Classical.not_imp, not_le]
    rw [or_left_comm, or_assoc]
  · obtain ⟨e, hdec⟩ : ∃ e, decode cmd = .error e := by
      cases hdec : decode cmd with
      | ok i => exact absurd hdec (hillegal i)
      | error e => exact ⟨e, rfl⟩
    exact step_eq_next.2 (Or.inr (Or.inl ⟨cmd, rest, he, runCommand_eq_next.2 (Or.inr (Or.inl ⟨hu, e, hdec, rfl⟩))⟩))

/-- Settles O6: each CMD is assembled from its fields, and the table lookup on them evaluates. -/
theorem rowsReadTheirOperandFields : Obligations.RowsReadTheirOperandFields := by
  intro a b
  simp only [decode_commandOf]
  exact ⟨rfl, rfl, rfl, rfl, rfl, rfl, rfl, rfl, rfl, rfl⟩

/-- Settles O7: `BitVec.toInt` is the sign extension of R65. -/
theorem rotateAmountIsSignExtendedC : Obligations.RotateAmountIsSignExtendedC := by
  refine ⟨fun a b c => ⟨c.toInt, decode_commandOf _ _ _ _, ?_, ?_⟩, fun a b => decode_commandOf _ _ _ _⟩
  · rw [BitVec.toInt_eq_toNat_cond]
    split <;> split <;> omega
  · exact ⟨(toInt_bounds c).1, Int.le_sub_one_of_lt (toInt_bounds c).2⟩

/-- Settles O8: eight fixed words, evaluated. -/
theorem writtenWordsDecode : Obligations.WrittenWordsDecode := by
  unfold Obligations.WrittenWordsDecode
  decide +kernel

/-- A field that lies in the low part of an appended word. -/
theorem extract_below {v w start len : Nat} {hi : BitVec v} {lo : BitVec w} (h : start + len ≤ w := by decide) :
    (hi ++ lo).extractLsb' start len = lo.extractLsb' start len :=
  BitVec.extractLsb'_append_eq_of_add_le h

/-- Settles O9: each field of `RSP` stands below those appended before it. -/
theorem responseWordLaysOutItsFields : Obligations.ResponseWordLaysOutItsFields := by
  refine ⟨fun r => ⟨?status, ?cause, ?fop, ?state, ?zero, ?value⟩, rfl, rfl, rfl⟩
  case value => exact BitVec.extractLsb'_append_eq_left
  case zero => exact Eq.trans extract_below BitVec.extractLsb'_append_eq_left
  case state => exact Eq.trans extract_below <| Eq.trans extract_below BitVec.extractLsb'_append_eq_left
  case fop =>
    exact Eq.trans extract_below <| Eq.trans extract_below <| Eq.trans extract_below BitVec.extractLsb'_append_eq_left
  case cause =>
    exact Eq.trans extract_below <| Eq.trans extract_below <| Eq.trans extract_below <| Eq.trans extract_below
      BitVec.extractLsb'_append_eq_left
  case status =>
    exact Eq.trans extract_below <| Eq.trans extract_below <| Eq.trans extract_below <| Eq.trans extract_below
      BitVec.extractLsb'_append_eq_right

end Sys2Proof.Proofs
end

section
/-! PROOFS. The statements about GET and SET (`41_bit_accessor.md`). -/

namespace Sys2Proof.Proofs

open Sys2Proof.Machine Sys2Proof.Laws

/-- A response of a unit in state READY, in the words of the statements (R61). -/
theorem respond_of_ready {s : State} (hu : s.unit = .ready) (st : Status) (v : Word) :
    respond st v s = s.answering ⟨st, s.cause, s.fop, .ready, v⟩ := by
  rw [← hu, respond]

/-- A fault of the command `i`, in the words of the statements: FOP and FARG are its opcode and its field `A` (R158). -/
theorem raiseFault_encode (c : Cause) (i : Instr) (s : State) :
    raiseFault c (encode i) s = s.faulting c (opcodeOf i) (fieldA i) := by
  rw [raiseFault, commandOp_encode, commandA_encode, respond]

/-- The byte of an index in range is one of the bytes `0 .. NB` (R23, R41). -/
theorem index_div_lt_nb {s : State} {i : Nat} (hi : i < s.bitCount.toNat) : i / 8 < s.nb + 1 :=
  (Nat.div_le_div_right hi.le).trans_lt (bitCount_div_lt_nb s)

/-- `setbit` as the reads that follow see it: bit `i` reads `v`, every other bit and every byte but that of `i` as
before (R80). -/
theorem setbit_reads {m : Memory} {n i : Nat} (v : Bool) (hc : m.Covers n) (hi : i / 8 < n) :
    ∃ m', m.setbit i v = .ok m' ∧ m'.size = m.size ∧ m'.bit i = .ok v ∧ (∀ j, j ≠ i → m'.bit j = m.bit j) ∧
      ∀ a, a ≠ byteIndex i → m'.readByte a = m.readByte a := by
  obtain ⟨m', hset, he, hbits⟩ := setbit_spec v hc hi
  have hother : ∀ j, j ≠ i → m'.bitAt j = m.bitAt j := fun j hj => (hbits j).trans (if_neg hj)
  refine ⟨m', hset, he.size_eq, ?_, fun j hj => bit_of_evolves hc he (hother j hj), fun a ha => ?_⟩
  · rw [bit_of_covers he.covers hi, hbits i, if_pos rfl]
  · have hbyte : a ≠ i / 8 := ha
    exact readByte_of_evolves hc he fun k hk => hother _ (by omega)

/-- GET in range in state READY (R81). -/
theorem exec_get_of_bit {s : State} {i : Nat} {v : Bool} (hu : s.unit = .ready) (hr : i < s.bitCount.toNat)
    (hv : s.buf.bit i = .ok v) : exec (.get i) s = .next (s.answering ⟨.ok, s.cause, s.fop, .ready, boolWord v⟩) :=
  hu ▸ onlyAnswers_get hu (indexInRange_eq_true.2 hr) hv s.responses

/-- Settles O33: the byte of an index in range holds a value, and GET answers with its bit. -/
theorem getReadsTheBit : Obligations.GetReadsTheBit := by
  intro s i hs hi
  have hbit : s.buf.bit i = .ok (s.buf.bitAt i) := bit_of_covers (covers_of_readyInv hs) (index_div_lt_nb hi)
  exact ⟨s.buf.bitAt i, hbit, exec_get_of_bit hs.1 hi hbit⟩

/-- Settles O34: SET completes with the memory `setbit` leaves. -/
theorem setWritesTheBitOnly : Obligations.SetWritesTheBitOnly := by
  intro s i v hs hi
  obtain ⟨m, hset, hreads⟩ := setbit_reads v (covers_of_readyInv hs) (index_div_lt_nb hi)
  refine ⟨m, ?_, hreads⟩
  rw [exec_set_of_setbit hs.1 hi hset, respond_of_ready (s := { s with buf := m }) hs.1]

/-- Settles O36: SET leaves a unit in state READY in whose BUF bit `i` reads `v`, and GET answers what it reads. -/
theorem setThenGetRoundTrip : Obligations.SetThenGetRoundTrip := by
  intro s i v hs hi
  obtain ⟨m, hset, _, hbit, hother, _⟩ := setWritesTheBitOnly s i v hs hi
  exact ⟨_, hset, exec_get_of_bit hs.1 hi hbit, fun j hj _ => hother j hj⟩

/-- Settles O35: the precondition fails, and FOP and FARG are the fields of the command. -/
theorem indexOutOfRangeFaults : Obligations.IndexOutOfRangeFaults := by
  intro s i hu hi
  have hout : ¬ s.indexInRange i = true := fun hr => absurd (indexInRange_eq_true.1 hr) hi.not_gt
  constructor
  · rw [exec, execGet, whenReady_of_ready hu, if_neg hout, finish_ok, raiseFault_encode, opcodeOf, fieldA]
  · intro v
    rw [exec, execSet, whenReady_of_ready hu, if_neg hout, finish_ok, raiseFault_encode, opcodeOf, fieldA]

end Sys2Proof.Proofs
end

section
/-! PROOFS. The statements about GET64 and SET64 (`42_wide_accessor.md`). -/

namespace Sys2Proof.Proofs

open Sys2Proof.Machine Sys2Proof.Laws

/-! ### The bound -/

/-- Settles O37: each form is arithmetic on the bound `i div 8 + 8 <= NB` that the model tests. -/
theorem wideBoundAgreesWithTheSource : Obligations.WideBoundAgreesWithTheSource := by
  intro s i
  have hbound : s.wideInBound i = true ↔ i / 8 + 8 ≤ s.nb := wideInBound_eq_true
  refine ⟨hbound, ?_, ?_, fun hsmall => ?_, fun hlarge => ?_⟩
  · rw [hbound, byteIndex]; omega
  · rw [hbound]; omega
  · rw [Bool.eq_false_iff, ne_eq, hbound]; omega
  · rw [hbound]; omega

/-- Settles O40: the precondition fails, and FOP and FARG are the fields of the command. -/
theorem windowOutOfBoundFaults : Obligations.WindowOutOfBoundFaults := by
  intro s i hu hi
  have hout : ¬ s.wideInBound i = true := fun hr => absurd (wideInBound_eq_true.1 hr) hi.not_ge
  constructor
  · rw [exec, execGet64, whenReady_of_ready hu, if_neg hout, finish_ok, raiseFault_encode, opcodeOf, fieldA]
  · intro v
    rw [exec, execSet64, whenReady_of_ready hu, if_neg hout, finish_ok, raiseFault_encode, opcodeOf, fieldA]

/-! ### In bound -/

/-- `get64` in the words of the statements: each bit of the window is what `bit` reads (R97). -/
theorem get64_reads {m : Memory} {n i : Nat} (hc : m.Covers n) (hi : i / 8 + 8 < n) :
    ∃ w, m.get64 i = .ok w ∧ ∀ k, k < 64 → m.bit (i + k) = .ok (w.getLsbD k) := by
  obtain ⟨w, hget, hbits⟩ := get64_spec hc hi
  refine ⟨w, hget, fun k hk => ?_⟩
  rw [bit_of_covers hc (by omega), hbits k hk]

/-- `set64` as the reads that follow see it: the window reads `v`, every other bit and every byte outside the nine of the
span as before (R98). -/
theorem set64_reads {m : Memory} {n i : Nat} (v : Word) (hc : m.Covers n) (hi : i / 8 + 8 < n) :
    ∃ m', m.set64 i v = .ok m' ∧ m'.size = m.size ∧ (∀ k, k < 64 → m'.bit (i + k) = .ok (v.getLsbD k)) ∧
      (∀ j, j < i ∨ i + 64 ≤ j → m'.bit j = m.bit j) ∧
      ∀ a, a < byteIndex i ∨ byteIndex i + 8 < a → m'.readByte a = m.readByte a := by
  obtain ⟨m', hset, he, hbits⟩ := set64_spec v hc hi
  have hother : ∀ j, j < i ∨ i + 64 ≤ j → m'.bitAt j = m.bitAt j := fun j hj => (hbits j).trans (if_neg (by omega))
  refine ⟨m', hset, he.size_eq, fun k hk => ?_, fun j hj => bit_of_evolves hc he (hother j hj), fun a ha => ?_⟩
  · rw [bit_of_covers he.covers (by omega), hbits, if_pos (by omega), Nat.add_sub_cancel_left]
  · rw [byteIndex] at ha
    exact readByte_of_evolves hc he fun k hk => hother _ (by omega)

/-- Settles O38: the nine bytes of the span hold values, and GET64 answers the window `get64` reads. -/
theorem get64ReadsTheWindow : Obligations.Get64ReadsTheWindow := by
  intro s i hs hi
  obtain ⟨w, hget, hbits⟩ := get64_reads (covers_of_readyInv hs) (Nat.lt_succ_of_le hi)
  exact ⟨w, hget, hbits, hs.1 ▸ onlyAnswers_get64 hs.1 (wideInBound_eq_true.2 hi) hget s.responses⟩

/-- Settles O39: SET64 completes with the memory `set64` leaves. -/
theorem set64WritesTheWindowOnly : Obligations.Set64WritesTheWindowOnly := by
  intro s i v hs hi
  obtain ⟨m, hset, hreads⟩ := set64_reads v (covers_of_readyInv hs) (Nat.lt_succ_of_le hi)
  refine ⟨m, hset, ?_, hreads⟩
  rw [exec_set64_of_set64 hs.1 hi hset, respond_of_ready (s := { s with buf := m }) hs.1]

/-! ### Reads of one width after writes of the other -/

/-- A command that writes BUF and answers leaves a legal state READY legal and READY. -/
theorem readyInv_of_write {s : State} {i : Instr} {m : Memory} {r : Response} (hs : s.ReadyInv)
    (h : exec i s = .next (({ s with buf := m } : State).answering r)) :
    (({ s with buf := m } : State).answering r).ReadyInv :=
  ⟨hs.1, (effect_keeps_inv hs.2 (exec_effect h)).2⟩

/-- GET64 answers the word whose bits its window reads. -/
theorem exec_get64_of_bits {s : State} {i : Nat} {v : Word} (hs : s.ReadyInv) (hi : i / 8 + 8 ≤ s.nb)
    (hv : ∀ k, k < 64 → s.buf.bit (i + k) = .ok (v.getLsbD k)) :
    exec (.get64 i) s = .next (s.answering ⟨.ok, s.cause, s.fop, .ready, v⟩) := by
  obtain ⟨w, _, hw, hexec⟩ := get64ReadsTheWindow s i hs hi
  have hword : w = v := BitVec.eq_of_getLsbD_eq fun k hk => Except.ok.inj ((hw k hk).symm.trans (hv k hk))
  rw [hexec, hword]

/-- GET64 `j` after SET64 `i, v`: `v`'s bits inside the window of the write, the old bits outside (R96, R98). -/
theorem get64_after_set64 {s t : State} {i j : Nat} {v : Word} (ht : t.ReadyInv) (hj : j / 8 + 8 ≤ t.nb)
    (hin : ∀ k, k < 64 → t.buf.bit (i + k) = .ok (v.getLsbD k))
    (hout : ∀ b, b < i ∨ i + 64 ≤ b → t.buf.bit b = s.buf.bit b) :
    ∃ w : Word, exec (.get64 j) t = .next (t.answering ⟨.ok, t.cause, t.fop, .ready, w⟩) ∧
      ∀ k, k < 64 → if i ≤ j + k ∧ j + k ≤ i + 63 then w.getLsbD k = v.getLsbD (j + k - i)
        else s.buf.bit (j + k) = .ok (w.getLsbD k) := by
  obtain ⟨w, _, hw, hexec⟩ := get64ReadsTheWindow t j ht hj
  refine ⟨w, hexec, fun k hk => ?_⟩
  split
  · next hwin =>
    have hwritten := hin (j + k - i) (by omega)
    rw [Nat.add_sub_cancel' hwin.1, hw k hk] at hwritten
    exact Except.ok.inj hwritten
  · next hwin => rw [← hout (j + k) (by omega), hw k hk]

/-- Settles O41: each write leaves a legal state READY, in which each read answers the bits BUF then holds. -/
theorem mixedWidthReadAfterWrite : Obligations.MixedWidthReadAfterWrite := by
  constructor
  · intro s i v hs hi
    obtain ⟨m, _, hexec, _, hin, hout, _⟩ := set64WritesTheWindowOnly s i v hs hi
    have ht := readyInv_of_write hs hexec
    exact ⟨_, hexec, exec_get64_of_bits ht hi hin, fun k hk hr => exec_get_of_bit hs.1 hr (hin k hk),
      fun j hj => get64_after_set64 ht hj hin hout⟩
  · intro s i j x hs hi hij hji hj
    obtain ⟨old, hget, hold, _⟩ := get64ReadsTheWindow s i hs hi
    obtain ⟨m, hexec, _, hbit, hother, _⟩ := setWritesTheBitOnly s j x hs hj
    obtain ⟨new, _, hnew, hanswer⟩ := get64ReadsTheWindow _ i (readyInv_of_write hs hexec) hi
    refine ⟨_, old, new, hget, hexec, hanswer, fun k hk => Except.ok.inj ((hnew k hk).symm.trans ?_)⟩
    by_cases hkj : k = j - i
    · rw [if_pos hkj, show i + k = j by omega]
      exact hbit
    · rw [if_neg hkj, ← hold k hk]
      exact hother (i + k) (by omega)

end Sys2Proof.Proofs
end

section
/-! PROOFS. The statements about `brev64` and REVERSE (`43_range_reversal.md`), with those ROTATE shares about its range. -/

namespace Sys2Proof.Proofs

open Sys2Proof.Machine Sys2Proof.Laws

/-! ### brev64 -/

/-- The low bits of a number, each at its weight. -/
theorem mod_two_pow_eq_sum_testBit (x n : Nat) : x % 2 ^ n = ∑ k ∈ Finset.range n, (x.testBit k).toNat * 2 ^ k := by
  induction n with
  | zero => simp [Nat.mod_one]
  | succ n ih => rw [Finset.sum_range_succ, ← ih, Nat.mod_pow_succ, Nat.toNat_testBit, Nat.mul_comm]

theorem word_toNat_eq_sum (w : Word) : w.toNat = ∑ k ∈ Finset.range 64, (w.getLsbD k).toNat * 2 ^ k := by
  rw [← Nat.mod_eq_of_lt w.isLt]
  exact mod_two_pow_eq_sum_testBit w.toNat 64

/-- The sum of R105, read from the other end: bit `63 - k` of the result is bit `k` of the word. -/
theorem brev64_toNat (w : Word) :
    (brev64 w).toNat = ((List.range 64).map fun k => (w.getLsbD k).toNat * 2 ^ (63 - k)).sum :=
  calc (brev64 w).toNat
      = ∑ k ∈ Finset.range 64, ((brev64 w).getLsbD k).toNat * 2 ^ k := word_toNat_eq_sum _
    _ = ∑ k ∈ Finset.range 64, (w.getLsbD (63 - k)).toNat * 2 ^ (63 - (63 - k)) :=
        Finset.sum_congr rfl fun k hk => by
          have hlt := Finset.mem_range.1 hk
          rw [brev64_getLsbD w hlt, Nat.sub_sub_self (Nat.le_of_lt_succ hlt)]
    _ = ∑ k ∈ Finset.range 64, (w.getLsbD k).toNat * 2 ^ (63 - k) :=
        Finset.sum_range_reflect (fun k => (w.getLsbD k).toNat * 2 ^ (63 - k)) 64

theorem brev64_brev64 (w : Word) : brev64 (brev64 w) = w := BitVec.reverse_reverse_eq

theorem ofNat_two_pow_getLsbD {j k : Nat} (hk : k < 64) :
    (BitVec.ofNat 64 (2 ^ j)).getLsbD k = decide (j = k) := by
  rw [BitVec.getLsbD_ofNat, Nat.testBit_two_pow]
  simp [hk]

theorem brev64_two_pow {k : Nat} (hk : k < 64) :
    brev64 (BitVec.ofNat 64 (2 ^ k)) = BitVec.ofNat 64 (2 ^ (63 - k)) := by
  refine BitVec.eq_of_getLsbD_eq fun j hj => ?_
  rw [brev64_getLsbD _ hj, ofNat_two_pow_getLsbD (by omega), ofNat_two_pow_getLsbD hj, decide_eq_decide]
  omega

theorem brev64_or (a b : Word) : brev64 (a ||| b) = brev64 a ||| brev64 b := by
  refine BitVec.eq_of_getLsbD_eq fun k hk => ?_
  rw [BitVec.getLsbD_or, brev64_getLsbD _ hk, brev64_getLsbD _ hk, brev64_getLsbD _ hk, BitVec.getLsbD_or]

/-- Settles O44: the laws follow from the bits; the fixed words are evaluated. -/
theorem brevReversesTheWord : Obligations.BrevReversesTheWord :=
  ⟨fun w _ hk => brev64_getLsbD w hk, brev64_toNat, brev64_brev64, by decide +kernel, by decide +kernel,
    fun _ hk => brev64_two_pow hk, brev64_or, by decide +kernel⟩

/-! ### Which ranges are reversed -/

/-- Settles O46: the empty range is the first test of both commands. -/
theorem emptyRangeIsANoOp : Obligations.EmptyRangeIsANoOp := by
  intro s start hu
  constructor
  · rw [exec, execReverse, whenReady_of_ready hu, if_pos rfl, finish_ok, respond_of_ready hu]
  · intro r
    rw [exec, execRotate, whenReady_of_ready hu, if_pos rfl, finish_ok, respond_of_ready hu]

/-- Settles O47: the range check fails, and FOP and FARG are the fields of the command. -/
theorem rangePastTheEndFaults : Obligations.RangePastTheEndFaults := by
  intro s start length hu hlen hpast
  have hne : length ≠ 0 := hlen.ne'
  have hout : ¬ s.rangeInBound start length = true := fun hr => absurd (rangeInBound_eq_true.1 hr) hpast.not_ge
  constructor
  · rw [exec, execReverse, whenReady_of_ready hu, if_neg hne, if_neg hout, finish_ok, raiseFault_encode, opcodeOf, fieldA]
  · intro r
    rw [exec, execRotate, whenReady_of_ready hu, if_neg hne, if_neg hout, finish_ok, raiseFault_encode, opcodeOf, fieldA]

/-- REVERSE in range in state READY (R107). -/
theorem exec_reverse_of_reverse {s : State} {start length : Nat} {m : Memory} (hu : s.unit = .ready) (hlen : 0 < length)
    (hr : start + length ≤ s.bitCount.toNat) (hm : s.buf.reverse start length = .ok m) :
    exec (.reverse start length) s = .next (respond .ok 0 { s with buf := m }) := by
  simp only [exec, execReverse, whenReady_of_ready hu, if_neg hlen.ne', if_pos (rangeInBound_eq_true.2 hr), hm, ok_bind,
    finish_ok]

/-! ### What reversing a range does -/

/-- No bulk round and no swap (R108, R109). -/
theorem reverse_zero (m : Memory) (start : Nat) : m.reverse start 0 = .ok m := rfl

/-- `reverse` as the reads that follow see it: the range mirrored, every other bit and every byte outside the range as
before (R110). -/
theorem reverse_reads {m : Memory} {n start length : Nat} (hc : m.Covers n) (hr : (start + length) / 8 < n) :
    ∃ m', m.reverse start length = .ok m' ∧ m'.size = m.size ∧
      (∀ k, k < length → m'.bit (start + k) = m.bit (start + length - 1 - k)) ∧
      (∀ j, j < start ∨ start + length ≤ j → m'.bit j = m.bit j) ∧
      ∀ a, 8 * a + 8 ≤ start ∨ start + length ≤ 8 * a → m'.readByte a = m.readByte a := by
  obtain ⟨m', hm, he, hbits⟩ := reverse_spec hc hr
  have hother : ∀ j, j < start ∨ start + length ≤ j → m'.bitAt j = m.bitAt j := fun j hj =>
    (hbits j).trans (if_neg (by omega))
  refine ⟨m', hm, he.size_eq, fun k hk => ?_, fun j hj => bit_of_evolves hc he (hother j hj), fun a ha =>
    readByte_of_evolves hc he fun k hk => hother _ (by omega)⟩
  have hmirror : start + (start + length) - 1 - (start + k) = start + length - 1 - k := by omega
  rw [bit_of_covers he.covers (by omega), bit_of_covers hc (by omega), hbits, if_pos (by omega), hmirror]

/-- A range that ends within the array lies in the bytes `0 .. NB` (R111). -/
theorem rangeEnd_div_lt_nb {s : State} {e : Nat} (he : e ≤ s.bitCount.toNat) : e / 8 < s.nb + 1 :=
  (Nat.div_le_div_right he).trans_lt (bitCount_div_lt_nb s)

/-- Settles O45: REVERSE completes with the memory `reverse` leaves. -/
theorem reverseMirrorsTheRange : Obligations.ReverseMirrorsTheRange := by
  refine ⟨reverse_zero, fun s start length hs hlen hr => ?_⟩
  obtain ⟨m, hm, hreads⟩ := reverse_reads (covers_of_readyInv hs) (rangeEnd_div_lt_nb hr)
  refine ⟨m, hm, ?_, hreads⟩
  rw [exec_reverse_of_reverse hs.1 hlen hr hm, respond_of_ready (s := { s with buf := m }) hs.1]

/-! ### Reversing a range twice -/

/-- Mirroring a range is an involution on bits, so reversing it twice is one on memories: equal bits in canonical form are
equal data (R112). -/
theorem reverse_reverse {m m' : Memory} {n start length : Nat} (hc : m.Covers n) (hwf : m.wf = true)
    (hr : (start + length) / 8 < n) (hm : m.reverse start length = .ok m') : m'.reverse start length = .ok m := by
  obtain ⟨he, hbits⟩ := of_completes (reverse_spec hc hr) hm
  obtain ⟨m'', hm', he', hbits'⟩ := reverse_spec he.covers hr
  have hrestored : m'' = m := eq_of_evolves hc hwf (evolves_trans he he') fun j => by
    rw [hbits' j]
    by_cases hin : start ≤ j ∧ j < start + length
    · have hmirror : start + (start + length) - 1 - (start + (start + length) - 1 - j) = j := by omega
      rw [if_pos hin, hbits, if_pos (by omega), hmirror]
    · rw [if_neg hin, hbits, if_neg hin]
  rw [hm', hrestored]

theorem wf_of_readyInv {s : State} (hs : s.ReadyInv) : s.buf.wf = true := by
  obtain ⟨_, _, hwf, _⟩ := hs
  exact hwf

/-- Two equal REVERSEs in each of the three cases of R107: the empty range, the range in the array, and the fault, after
which the second is ignored. -/
theorem exec_reverse_twice {s : State} (hs : s.ReadyInv) (start length : Nat) :
    ∃ s₁ s₂ : State, exec (.reverse start length) s = .next s₁ ∧ exec (.reverse start length) s₁ = .next s₂ ∧
      s₂.buf = s.buf := by
  obtain rfl | hlen := length.eq_zero_or_pos
  · exact ⟨_, _, (emptyRangeIsANoOp s start hs.1).1, (emptyRangeIsANoOp (s.answering _) start hs.1).1, rfl⟩
  · obtain hr | hpast := le_or_gt (start + length) s.bitCount.toNat
    · have hin := rangeEnd_div_lt_nb hr
      have hc := covers_of_readyInv hs
      obtain ⟨m, hm, _⟩ := reverse_spec hc hin
      have hback : m.reverse start length = .ok s.buf := reverse_reverse hc (wf_of_readyInv hs) hin hm
      exact ⟨_, _, exec_reverse_of_reverse hs.1 hlen hr hm,
        exec_reverse_of_reverse (s := respond .ok 0 { s with buf := m }) hs.1 hlen hr hback, rfl⟩
    · exact ⟨_, _, (rangePastTheEndFaults s start length hs.1 hlen hpast).1, exec_of_faulted _ rfl, rfl⟩

/-- `REVERSE 0, n` gives the mirror image of the first `n` bits; for `n = 0` there is none to mirror. -/
theorem exec_reverse_from_zero {s : State} {n : Nat} (hs : s.ReadyInv) (hn : n ≤ s.bitCount.toNat) :
    ∃ s₁ : State, exec (.reverse 0 n) s = .next s₁ ∧ ∀ k, k < n → s₁.buf.bit k = s.buf.bit (n - 1 - k) := by
  obtain rfl | hpos := n.eq_zero_or_pos
  · exact ⟨_, (emptyRangeIsANoOp s 0 hs.1).1, fun k hk => absurd hk k.not_lt_zero⟩
  · obtain ⟨m, _, hexec, _, hmirror, _⟩ := reverseMirrorsTheRange.2 s 0 n hs hpos (by rwa [Nat.zero_add])
    exact ⟨_, hexec, fun k hk => by simpa only [Nat.zero_add] using hmirror k hk⟩

/-- Settles O48: the three cases of two REVERSEs, and O45 for the range `[0, n)`. -/
theorem reverseTwiceRestores : Obligations.ReverseTwiceRestores :=
  ⟨fun _ start length hs => exec_reverse_twice hs start length, fun _ _ hs hn => exec_reverse_from_zero hs hn⟩

end Sys2Proof.Proofs
end

section
/-! PROOFS. The statements about ROTATE (`44_rotation.md`): which bit each bit of the range comes from, and how two such
moves compose. -/

namespace Sys2Proof.Proofs

open Sys2Proof.Machine Sys2Proof.Laws

/-! ### The amount -/

theorem rotateAmount_cast {b : Nat} (r : Int) (hb : 0 < b) : ((r % (b : Int)).toNat : Int) = r % (b : Int) :=
  Int.toNat_of_nonneg (Int.emod_nonneg r (Int.natCast_ne_zero.2 hb.ne'))

theorem dvd_sub_rotateAmount {b : Nat} (r : Int) (hb : 0 < b) : (b : Int) ∣ r - (r % (b : Int)).toNat := by
  rw [rotateAmount_cast r hb]
  exact Int.dvd_self_sub_emod

/-- The only number in `0 .. b-1` congruent to `r` is `r mod b` (R127). -/
theorem rotateAmount_unique {r : Int} {b n : Nat} (hn : n < b) (hdvd : (b : Int) ∣ r - n) :
    (r % (b : Int)).toNat = n := by
  have hcongr : r % (b : Int) = (n : Int) % b := Int.emod_eq_emod_iff_emod_sub_eq_zero.2 (Int.emod_eq_zero_of_dvd hdvd)
  rw [hcongr, ← Int.natCast_emod, Int.toNat_natCast, Nat.mod_eq_of_lt hn]

theorem floorMod_of_pos {b : Nat} (r : Int) (hb : 0 < b) : floorMod r b = some (r % (b : Int)).toNat := if_neg hb.ne'

/-- The source's formula for a negative amount that is no multiple of the length (R127). -/
theorem rotateAmount_neg {b k : Nat} (hb : 0 < b) (hk : k % b ≠ 0) : (-(k : Int) % (b : Int)).toNat = b - k % b := by
  have hlt := Nat.mod_lt k hb
  refine rotateAmount_unique (by omega) ⟨-(k / b : Nat) - 1, ?_⟩
  have hdiv : (b : Int) * (k / b : Nat) + (k % b : Nat) = k := by exact_mod_cast Nat.div_add_mod k b
  rw [Nat.cast_sub hlt.le, mul_sub, mul_neg]
  linarith

/-- Settles O50: the amount is `r mod b`, and each form of it is in `0 .. b-1` and congruent to `r`. -/
theorem amountIsNormalisedIntoTheLength : Obligations.AmountIsNormalisedIntoTheLength := by
  refine ⟨fun r b hb => ⟨_, floorMod_of_pos r hb, rotateAmount_lt r hb, dvd_sub_rotateAmount r hb, fun hr => ?_,
    fun hr hne => ?_, fun hr hzero => ?_⟩, by decide⟩
  · obtain ⟨k, rfl⟩ := Int.eq_ofNat_of_zero_le hr
    rw [← Int.natCast_emod, Int.toNat_natCast, Int.toNat_natCast]
  · obtain ⟨k, rfl⟩ : ∃ k : Nat, r = -k := ⟨(-r).toNat, by omega⟩
    rw [neg_neg, Int.toNat_natCast] at hne ⊢
    exact rotateAmount_neg hb hne
  · have hdvd : (b : Int) ∣ (-r).toNat := Int.natCast_dvd_natCast.2 (Nat.dvd_of_mod_eq_zero hzero)
    rw [Int.toNat_of_nonneg (by omega), dvd_neg] at hdvd
    rw [Int.emod_eq_zero_of_dvd hdvd, Int.toNat_zero]

/-! ### The command -/

/-- ROTATE of a range in the array in state READY, with the amount it normalises to (R125). -/
theorem exec_rotate_in_range {s : State} {offset length : Nat} (r : Int) (hu : s.unit = .ready) (hlen : 0 < length)
    (hr : offset + length ≤ s.bitCount.toNat) :
    exec (.rotate offset length r) s = finish (
      if (r % (length : Int)).toNat = 0 then .ok (respond .ok 0 s)
      else do
        let m ← s.buf.threeReversals offset length (r % (length : Int)).toNat
        .ok (respond .ok 0 { s with buf := m })) := by
  rw [exec, execRotate, whenReady_of_ready hu, if_neg hlen.ne', if_pos (rangeInBound_eq_true.2 hr),
    floorMod_of_pos r hlen]

/-- The amount enters ROTATE by its remainder only: a fault reports the opcode and the offset (R127, R158). -/
theorem exec_rotate_congr {length : Nat} {r r' : Int} (h : r % (length : Int) = r' % (length : Int)) (offset : Nat)
    (s : State) : exec (.rotate offset length r) s = exec (.rotate offset length r') s := by
  have hamount : floorMod r length = floorMod r' length := by rw [floorMod, floorMod, h]
  have hfault : ∀ c, raiseFault c (encode (.rotate offset length r)) s
      = raiseFault c (encode (.rotate offset length r')) s := fun c => by
    rw [raiseFault_encode, raiseFault_encode, opcodeOf, opcodeOf, fieldA, fieldA]
  simp only [exec, execRotate, whenReady, hamount, hfault]

/-- Settles O52: the empty range is the first test, and a multiple of the length normalises to 0. -/
theorem rotateByAMultipleIsANoOp : Obligations.RotateByAMultipleIsANoOp := by
  intro s offset length r hu h
  obtain rfl | hlen := length.eq_zero_or_pos
  · exact (emptyRangeIsANoOp s offset hu).2 r
  · obtain ⟨hr, hdvd⟩ := h.resolve_left hlen.ne'
    have hzero : (r % (length : Int)).toNat = 0 := by rw [Int.emod_eq_zero_of_dvd hdvd, Int.toNat_zero]
    rw [exec_rotate_in_range r hu hlen hr, if_pos hzero, finish_ok, respond_of_ready hu]

/-- Settles O54: the two amounts are congruent, for length 0 as well. -/
theorem negativeAmountIsTheComplement : Obligations.NegativeAmountIsTheComplement := by
  intro s offset length k _
  refine exec_rotate_congr ?_ offset s
  calc -(k : Int) % length
      = (length + -k) % length := by rw [Int.add_emod_left]
    _ = (length - k % length) % length := by rw [← sub_eq_add_neg, Int.sub_emod_emod]

/-- Settles O56: with `n = length` the first reversal is empty, and the other two reverse the same range (R132). -/
theorem literalNormalisationEndsTheSame : Obligations.LiteralNormalisationEndsTheSame := by
  intro s offset length hs hr
  have hin := rangeEnd_div_lt_nb hr
  have hc := covers_of_readyInv hs
  obtain ⟨m, hm, _⟩ := reverse_spec hc hin
  have hback : m.reverse offset length = .ok s.buf := reverse_reverse hc (wf_of_readyInv hs) hin hm
  rw [Memory.threeReversals, Nat.sub_self, reverse_zero, ok_bind, Nat.add_zero, hm, ok_bind, hback]

/-! ### Where a rotation takes each bit from -/

/-- The bit index whose bit a rotation of `[offset, offset + length)` right by `r` brings to `j` (R130). -/
def rotateSource (offset length : Nat) (r : Int) (j : Nat) : Nat :=
  if offset ≤ j ∧ j < offset + length then offset + (((j : Int) - offset - r) % (length : Int)).toNat else j

section rotateSource
variable {offset length : Nat}

theorem rotateSource_inside (r : Int) {k : Nat} (hk : k < length) :
    rotateSource offset length r (offset + k) = offset + (((k : Int) - r) % (length : Int)).toNat := by
  rw [rotateSource, if_pos (by omega), Nat.cast_add, add_sub_cancel_left]

theorem rotateSource_outside (r : Int) {j : Nat} (hj : ¬(offset ≤ j ∧ j < offset + length)) :
    rotateSource offset length r j = j := if_neg hj

theorem rotateSource_congr {r r' : Int} (h : r % (length : Int) = r' % (length : Int)) :
    rotateSource offset length r = rotateSource offset length r' := by
  funext j
  have hcongr : ((j : Int) - offset - r) % length = ((j : Int) - offset - r') % length := by
    rw [← Int.sub_emod_emod, h, Int.sub_emod_emod]
  rw [rotateSource, rotateSource, hcongr]

/-- A rotation by `r` is the rotation by its normalised amount (R127). -/
theorem rotateSource_amount (r : Int) (hlen : 0 < length) :
    rotateSource offset length r = rotateSource offset length (r % (length : Int)).toNat :=
  rotateSource_congr (by rw [rotateAmount_cast r hlen, Int.emod_emod])

/-- Taking from where a second rotation takes from is one rotation by the sum (R131 (f)). -/
theorem rotateSource_rotateSource (r₁ r₂ : Int) (j : Nat) :
    rotateSource offset length r₁ (rotateSource offset length r₂ j) = rotateSource offset length (r₁ + r₂) j := by
  by_cases hin : offset ≤ j ∧ j < offset + length
  · obtain ⟨k, rfl⟩ := Nat.exists_eq_add_of_le hin.1
    have hk : k < length := by omega
    have hlen : 0 < length := by omega
    have hsum : (((k : Int) - r₂) % length - r₁) % length = ((k : Int) - (r₁ + r₂)) % length := by
      rw [Int.emod_sub_emod, sub_sub, add_comm r₂]
    rw [rotateSource_inside r₂ hk, rotateSource_inside r₁ (rotateAmount_lt _ hlen), rotateAmount_cast _ hlen, hsum,
      rotateSource_inside _ hk]
  · rw [rotateSource_outside r₂ hin, rotateSource_outside r₁ hin, rotateSource_outside _ hin]

/-- The bit at `k` of the range goes to `(k + n) mod length` (R130). -/
theorem rotateSource_target {n k : Nat} (hk : k < length) :
    rotateSource offset length n (offset + (k + n) % length) = offset + k := by
  have hback : (((k + n) % length : Nat) - (n : Int)) % length = k := by
    rw [Int.natCast_emod, Int.emod_sub_emod, Nat.cast_add, add_sub_cancel_right, ← Int.natCast_emod,
      Nat.mod_eq_of_lt hk]
  rw [rotateSource_inside _ (Nat.mod_lt _ (by omega)), hback, Int.toNat_natCast]

/-- The two cases of R130's proof: the source lies `n` below, or wraps to the other end of the range. -/
theorem rotateSource_of_lt {n : Nat} (hn : n < length) (j : Nat) :
    rotateSource offset length n j =
      if offset ≤ j ∧ j < offset + length then if j < offset + n then j + length - n else j - n else j := by
  by_cases hin : offset ≤ j ∧ j < offset + length
  · obtain ⟨k, rfl⟩ := Nat.exists_eq_add_of_le hin.1
    rw [if_pos hin, rotateSource_inside _ (by omega)]
    by_cases hlow : k < n
    · rw [rotateAmount_unique (n := k + length - n) (by omega) ⟨-1, by omega⟩]
      split <;> omega
    · rw [rotateAmount_unique (n := k - n) (by omega) ⟨0, by omega⟩]
      split <;> omega
  · rw [rotateSource_outside _ hin, if_neg hin]

end rotateSource

/-! ### What a rotation does -/

/-- ROTATE of a range in the array, by any amount, completes and takes every bit from its source; the no-op of amount 0
does so too (R128, R130). -/
theorem exec_rotate_spec {s : State} {offset length : Nat} (r : Int) (hs : s.ReadyInv) (hlen : 0 < length)
    (hr : offset + length ≤ s.bitCount.toNat) :
    ∃ m : Memory, exec (.rotate offset length r) s
        = .next (({ s with buf := m } : State).answering ⟨.ok, s.cause, s.fop, .ready, 0⟩) ∧
      Memory.Evolves (s.nb + 1) s.buf m ∧ ∀ j, m.bitAt j = s.buf.bitAt (rotateSource offset length r j) := by
  have hc := covers_of_readyInv hs
  have hn := rotateAmount_lt r hlen
  rw [exec_rotate_in_range r hs.1 hlen hr, rotateSource_amount r hlen]
  generalize (r % (length : Int)).toNat = n at hn
  by_cases hzero : n = 0
  · subst hzero
    refine ⟨s.buf, ?_, evolves_refl hc, fun j => ?_⟩
    · rw [if_pos rfl, finish_ok, respond_of_ready hs.1]
    · congr 1
      rw [rotateSource_of_lt hn]
      split_ifs <;> omega
  · obtain ⟨m, hm, he, hbits⟩ := threeReversals_spec hc (rangeEnd_div_lt_nb hr) hn
    refine ⟨m, ?_, he, fun j => ?_⟩
    · rw [if_neg hzero, hm, ok_bind, finish_ok, respond_of_ready (s := { s with buf := m }) hs.1]
    · rw [hbits j, rotateSource_of_lt hn, apply_ite s.buf.bitAt, apply_ite s.buf.bitAt]

/-- Settles O51: each bit of the range reads what its source read, and a bit outside is its own source. -/
theorem rotateMovesEveryBit : Obligations.RotateMovesEveryBit := by
  intro s offset length r hs hlen hr
  have hc := covers_of_readyInv hs
  have hN : (offset + length) / 8 < s.nb + 1 := rangeEnd_div_lt_nb hr
  obtain ⟨m, hexec, he, hbits⟩ := exec_rotate_spec r hs hlen hr
  have hmove : ∀ i j, i < length → j < length →
      rotateSource offset length (r % (length : Int)).toNat (offset + i) = offset + j →
      m.bit (offset + i) = s.buf.bit (offset + j) := fun i j hi hj h => by
    rw [bit_of_covers he.covers (by omega), bit_of_covers hc (by omega), hbits, rotateSource_amount r hlen, h]
  have hother : ∀ j, j < offset ∨ offset + length ≤ j → m.bitAt j = s.buf.bitAt j := fun j hj => by
    rw [hbits, rotateSource_outside r (by omega)]
  exact ⟨m, _, rotateAmount_cast r hlen, hexec, he.size_eq,
    fun k hk => hmove _ k (Nat.mod_lt _ hlen) hk (rotateSource_target hk),
    fun k hk => hmove k _ hk (rotateAmount_lt _ hlen) (rotateSource_inside _ hk),
    fun j hj => bit_of_evolves hc he (hother j hj),
    fun a ha => readByte_of_evolves hc he fun k hk => hother _ (by omega)⟩

/-! ### Two rotations -/

/-- Two memories that evolved from one in canonical form, with the same bits, are the same memory. -/
theorem eq_of_evolves_both {n : Nat} {m m₁ m₂ : Memory} (hwf : m.wf = true) (he₁ : Memory.Evolves n m m₁)
    (he₂ : Memory.Evolves n m m₂) (h : ∀ j, m₂.bitAt j = m₁.bitAt j) : m₂ = m₁ := by
  have he : Memory.Evolves n m₁ m₂ :=
    ⟨he₂.size_eq.trans he₁.size_eq.symm, fun _ => he₂.wf hwf, he₂.covers,
      fun a ha => (he₂.above a ha).trans (he₁.above a ha).symm⟩
  exact eq_of_evolves he₁.covers (he₁.wf hwf) he h

/-- Settles O55: the sources compose to the source of the sum, and equal bits in canonical form are equal data. -/
theorem rotationsCompose : Obligations.RotationsCompose := by
  intro s offset length r₁ r₂ r hs hlen hr hsum
  obtain ⟨m₁, hexec₁, he₁, hb₁⟩ := exec_rotate_spec r₁ hs hlen hr
  obtain ⟨m₂, hexec₂, he₂, hb₂⟩ := exec_rotate_spec r₂ (readyInv_of_write hs hexec₁) hlen hr
  obtain ⟨m, hexec, he, hb⟩ := exec_rotate_spec r hs hlen hr
  refine ⟨_, _, _, hexec₁, hexec₂, hexec, eq_of_evolves_both (wf_of_readyInv hs) he (evolves_trans he₁ he₂) fun j => ?_⟩
  calc m₂.bitAt j
      = m₁.bitAt (rotateSource offset length r₂ j) := hb₂ j
    _ = s.buf.bitAt (rotateSource offset length (r₁ + r₂) j) := by rw [hb₁, rotateSource_rotateSource]
    _ = m.bitAt j := by rw [hb, rotateSource_congr hsum]

/-- Settles O53: `k` and `-k` compose to the rotation by 0, which is a no-op; so is every rotation of the empty range. -/
theorem rotateBackRestores : Obligations.RotateBackRestores := by
  intro s offset length k hs h
  obtain rfl | hlen := length.eq_zero_or_pos
  · exact ⟨_, _, (emptyRangeIsANoOp s offset hs.1).2 k, (emptyRangeIsANoOp (s.answering _) offset hs.1).2 (-k), rfl⟩
  · have hr := h.resolve_left hlen.ne'
    obtain ⟨s₁, s₂, t, hexec₁, hexec₂, hexec, hbuf⟩ :=
      rotationsCompose s offset length k (-k) 0 hs hlen hr (by rw [add_neg_cancel])
    have hnoop := rotateByAMultipleIsANoOp s offset length 0 hs.1 (Or.inr ⟨hr, dvd_zero _⟩)
    obtain rfl := Host.Outcome.next.inj (hnoop.symm.trans hexec)
    exact ⟨s₁, s₂, hexec₁, hexec₂, hbuf⟩

end Sys2Proof.Proofs
end

section
/-! PROOFS. The statements about CREATE, DESTROY, SIZE and STATUS (`45_lifecycle.md`). -/

namespace Sys2Proof.Proofs

open Sys2Proof.Machine Sys2Proof.Laws

/-! ### CREATE -/

theorem doesNotFit_eq_true {bufBytes n : Nat} : doesNotFit bufBytes n = true ↔ bufBytes < byteCount n + 1 :=
  decide_eq_true_iff

/-- The two forms of CREATE's size test (R141 (b)). They agree because BUF has the guard byte at least. -/
theorem size_lt_iff_maxBits_lt {bufBytes : Nat} (h : 1 ≤ bufBytes) (n : Nat) :
    bufBytes < byteCount n + 1 ↔ maxBits bufBytes < n := by
  rw [byteCount, maxBits, Config.guardBytes]
  omega

/-- `zeroFill` as the reads that follow see it: bytes and bits below `n` read 0, every other byte as before (R140). -/
theorem zeroFill_reads {m : Memory} {n : Nat} (h : n ≤ m.size) :
    ∃ m', m.zeroFill n = .ok m' ∧ m'.size = m.size ∧ (∀ a, a < n → m'.readByte a = .ok 0) ∧
      (∀ i, i < 8 * n → m'.bit i = .ok false) ∧ ∀ a, n ≤ a → m'.readByte a = m.readByte a := by
  obtain ⟨m', hm, hsize, _, hcells⟩ := zeroFill_spec m n h
  have hzero : ∀ a, a < n → m'.readByte a = .ok 0 := fun a ha =>
    readByte_eq_ok.2 ⟨hsize ▸ ha.trans_le h, (hcells a).trans (if_pos ha)⟩
  refine ⟨m', hm, hsize, hzero, fun i hi => ?_, fun a ha => ?_⟩
  · simp [Memory.bit, hzero (byteIndex i) (Nat.div_lt_of_lt_mul hi)]
  · simp only [Memory.readByte, hsize, hcells a, if_neg ha.not_gt]

/-- CREATE of an array that fits, in state EMPTY (R140). -/
theorem exec_create_of_zeroFill {s : State} {n : Nat} {m : Memory} (hu : s.unit = .empty)
    (hfit : doesNotFit s.buf.size n = false) (hm : s.buf.zeroFill (byteCount n + 1) = .ok m) :
    exec (.create n) s
      = .next (respond .ok 0 { s with bitCount := BitVec.ofNat 64 n, buf := m, unit := .ready }) := by
  have hnf : s.unit ≠ .faulted := by simp [hu]
  have hnr : s.unit ≠ .ready := by simp [hu]
  simp only [exec, execCreate, whenNotFaulted_of_not_faulted hnf, if_neg hnr, hfit, Bool.false_eq_true, if_false, hm,
    ok_bind, finish_ok]

/-- CREATE without room: an array is there already, or the new one does not fit (R141). -/
theorem exec_create_noHandle {s : State} {n : Nat} (hu : s.unit ≠ .faulted)
    (h : s.unit = .ready ∨ doesNotFit s.buf.size n = true) :
    exec (.create n) s = .next (s.answering ⟨.noHandle, s.cause, s.fop, s.unit, 0⟩) := by
  rw [exec, execCreate, whenNotFaulted_of_not_faulted hu]
  by_cases hr : s.unit = .ready
  · rw [if_pos hr, finish_ok, respond]
  · rw [if_neg hr, if_pos (h.resolve_left hr), finish_ok, respond]

/-- Settles O27: CREATE completes with the memory `zeroFill` leaves, and the size of an array that fits is a 64-bit number. -/
theorem createMakesAZeroedArray : Obligations.CreateMakesAZeroedArray := by
  intro s n hs hu hroom
  have hfit : doesNotFit s.buf.size n = false := decide_eq_false hroom.not_gt
  obtain ⟨_, _, hlt⟩ := fits_bounds hs.1 hfit
  obtain ⟨m, hm, hsize, hbytes, hbits, hkept⟩ := zeroFill_reads hroom
  exact ⟨m, exec_create_of_zeroFill hu hfit hm, (BitVec.toNat_ofNat n 64).trans (Nat.mod_eq_of_lt hlt), hsize,
    fun a ha => hbytes a (Nat.lt_succ_of_le ha), hbits, hkept⟩

/-- Settles O28: neither case is in state FAULTED, and the size test has two equivalent forms. -/
theorem createWithoutRoomAnswersNoHandle : Obligations.CreateWithoutRoomAnswersNoHandle := by
  intro s n hsize
  have hforms := size_lt_iff_maxBits_lt hsize.1 n
  refine ⟨fun h => ?_, hforms⟩
  rcases h with hu | ⟨hu, hmax⟩
  · exact exec_create_noHandle (by simp [hu]) (Or.inl hu)
  · exact exec_create_noHandle (by simp [hu]) (Or.inr (doesNotFit_eq_true.2 (hforms.2 hmax)))

/-! ### DESTROY, SIZE and STATUS -/

/-- DESTROY outside FAULTED (R142). -/
theorem exec_destroy_of_not_faulted {s : State} (hu : s.unit ≠ .faulted) :
    exec .destroy s = .next (respond .ok 0 { s with bitCount := 0, unit := .empty, buf := s.buf.forget }) := by
  rw [exec, execDestroy, whenNotFaulted_of_not_faulted hu, finish_ok]

/-- A unit legal and EMPTY is already what DESTROY leaves (R30, R36 (b)). -/
theorem destroyed_eq_self {s : State} (h : s.Inv) (hu : s.unit = .empty) :
    ({ s with bitCount := 0, unit := .empty, buf := s.buf.forget } : State) = s := by
  obtain ⟨_, _, hempty, _, _, _, _, hcells⟩ := h
  have hforget : s.buf.forget = s.buf := by rw [Memory.forget, ← hcells hu]
  rw [hforget, ← hempty hu, ← hu]

/-- Settles O29: DESTROY forgets BUF, and a legal state EMPTY has nothing to forget. -/
theorem destroyGivesTheArrayUp : Obligations.DestroyGivesTheArrayUp := by
  refine ⟨fun s hu => ⟨s.buf.forget, exec_destroy_of_not_faulted hu, forget_size s.buf, readByte_forget s.buf⟩,
    fun s hs hu => ?_⟩
  rw [exec_destroy_of_not_faulted (by simp [hu]), destroyed_eq_self hs hu, ← hu, respond]

/-- Settles O30: SIZE only answers. -/
theorem sizeReadsBitCount : Obligations.SizeReadsBitCount :=
  fun s hu => hu ▸ onlyAnswers_size hu s.responses

/-- Settles O31: STATUS only answers, and outside FAULTED the fault registers of a legal state hold nothing. -/
theorem statusReportsTheCondition : Obligations.StatusReportsTheCondition := by
  intro s
  have hanswer : s.unit ≠ .faulted → exec .status s = .next (s.answering ⟨.ok, s.cause, s.fop, s.unit, s.farg⟩) :=
    fun hu => onlyAnswers_status hu s.responses
  refine ⟨hanswer, fun hu hs => ?_, fun hu => hu ▸ onlyAnswers_of_faulted .status hu s.responses⟩
  obtain ⟨hcause, hfop, hfarg⟩ := faultRegisters_of_not_faulted hs hu
  rw [hanswer hu, hcause, hfop, hfarg]

end Sys2Proof.Proofs
end

section
/-! PROOFS. The statements about faults and what every command answers (`60_exceptions.md`). -/

namespace Sys2Proof.Proofs

open Sys2Proof.Machine Sys2Proof.Laws

/-! ### The step on a presented command -/

theorem step_of_command {s : State} {cmd : Command} {rest : List HostEvent} (he : s.events = .command cmd :: rest) :
    step s = runCommand cmd { s with events := rest } := by
  rw [step, takeEvent, he]

theorem runCommand_of_faulted (cmd : Command) {s : State} (hu : s.unit = .faulted) :
    runCommand cmd s = .next (respondFaulted s) :=
  runCommand_eq_next.2 (Or.inl ⟨hu, rfl⟩)

/-- A command that decodes is executed; in FAULTED, where nothing is decoded, `exec` answers the same (log 12). -/
theorem runCommand_of_decode {cmd : Command} {s : State} {i : Instr} (hd : decode cmd = .ok i) :
    runCommand cmd s = exec i s := by
  by_cases hu : s.unit = .faulted
  · rw [runCommand_of_faulted cmd hu, exec_of_faulted i hu]
  · rw [runCommand, hd]
    cases hs : s.unit with
    | empty => rfl
    | ready => rfl
    | faulted => exact absurd hs hu

/-- Settles O10: the unit takes the command and runs it. -/
theorem stepRunsTheDecodedCommand : Obligations.StepRunsTheDecodedCommand :=
  fun _ _ _ _ he hd => (step_of_command he).trans (runCommand_of_decode hd)

/-! ### Fault entry, and state FAULTED -/

/-- The last response of a state, as it leaves the unit. -/
theorem lastResponseWord_of_responses {s : State} {rs : List Response} {r : Response} (h : s.responses = rs ++ [r]) :
    s.lastResponseWord = some (responseWord r) := by
  rw [State.lastResponseWord, h, List.getLast?_concat, Option.map_some]

/-- The example of R158 and R159: `GET 16` on 16 bits. -/
theorem exec_get_sixteen_of_sixteen {s : State} (hu : s.unit = .ready) (hb : s.bitCount = 16) :
    exec (.get 16) s = .next (s.faulting .indexRange 0x04 16) :=
  have hout : s.bitCount.toNat ≤ 16 := by rw [hb]; decide
  (indexOutOfRangeFaults s 16 hu hout).1

/-- Settles O15: fault entry by definition, and the response of the example. -/
theorem faultEntryWritesTheFaultRegisters : Obligations.FaultEntryWritesTheFaultRegisters := by
  refine ⟨fun _ _ _ => rfl, fun s hu hb => ⟨_, exec_get_sixteen_of_sixteen hu hb, ?_⟩⟩
  rw [lastResponseWord_of_responses (r := ⟨.fault, .indexRange, 0x04, .faulted, 16⟩) rfl]
  decide

/-- The answer in FAULTED, in the words of the statements (R159). -/
theorem respondFaulted_of_faulted {s : State} (hu : s.unit = .faulted) :
    respondFaulted s = s.answering ⟨.faulted, s.cause, s.fop, .faulted, s.farg⟩ := by
  rw [← hu, respondFaulted, respond]

theorem exec_answers_faulted {s : State} (i : Instr) (hu : s.unit = .faulted) :
    exec i s = .next (s.answering ⟨.faulted, s.cause, s.fop, .faulted, s.farg⟩) := by
  rw [exec_of_faulted i hu, respondFaulted_of_faulted hu]

/-- Settles O11: neither the step nor `exec` looks at the command in FAULTED. -/
theorem faultedUnitAnswersEveryCommandFaulted : Obligations.FaultedUnitAnswersEveryCommandFaulted := by
  refine ⟨fun s cmd rest hu he => ?_, fun s i hu => exec_answers_faulted i hu, fun s hu hb =>
    ⟨_, _, exec_get_sixteen_of_sixteen hu hb, exec_answers_faulted .size rfl, ?_⟩⟩
  · have hu' : ({ s with events := rest } : State).unit = .faulted := hu
    rw [step_of_command he, runCommand_of_faulted cmd hu', respondFaulted_of_faulted hu']
  · rw [lastResponseWord_of_responses (r := ⟨.faulted, .indexRange, 0x04, .faulted, 16⟩) rfl]
    decide

/-- Settles O32: each of the seven begins with the check for an array (R160 step 3). -/
theorem arrayCommandsFaultWithoutAnArray : Obligations.ArrayCommandsFaultWithoutAnArray := by
  intro s i hu hi
  rw [← raiseFault_encode]
  cases i with
  | create | destroy | status => cases hi
  | size | get | set | get64 | set64 | reverse | rotate => exact whenReady_of_empty hu

/-! ### Every step, as to faults -/

/-- A command keeps `CAUSE` and whether the unit is FAULTED, or raises a fault of its own. -/
theorem effect_fault {s t : State} {i : Instr} (h : Effect s i t) :
    (t.cause = s.cause ∧ (t.unit = .faulted ↔ s.unit = .faulted)) ∨
      ∃ c, s.unit ≠ .faulted ∧ causeFits i c ∧ t = raiseFault c (encode i) s := by
  cases h with
  | raised _ c hu hc => exact Or.inr ⟨c, hu, hc, rfl⟩
  | created _ _ hu => exact Or.inl ⟨rfl, by simp [hu]⟩
  | destroyed hu => exact Or.inl ⟨rfl, by simp [hu]⟩
  | ignored | answered | noHandle | wroteBit | wroteWindow | reversed | rotated => exact Or.inl ⟨rfl, Iff.rfl⟩

/-- No command's own fault is ZERO_DIVISOR (R165). -/
theorem cause_ne_zeroDivisor_of_causeFits {i : Instr} {c : Cause} (h : causeFits i c) : c ≠ .zeroDivisor := by
  rintro rfl
  exact h

/-- A step keeps `CAUSE` and whether the unit is FAULTED, or raises a fault for the CMD presented, or is a reset. -/
theorem step_fault {s t : State} (h : step s = .next t) :
    (t.cause = s.cause ∧ (t.unit = .faulted ↔ s.unit = .faulted)) ∨
      (∃ cmd rest c, s.events = .command cmd :: rest ∧ s.unit ≠ .faulted ∧ c ≠ .none ∧ c ≠ .zeroDivisor ∧
        t = raiseFault c cmd { s with events := rest }) ∨
      ∃ rest, (s.events = .reset :: rest ∨ ∃ cmd, s.events = .cutCommand cmd :: rest) ∧
        t = resetUnit { s with events := rest } := by
  cases step_effect h with
  | idle | ignored => exact Or.inl ⟨rfl, Iff.rfl⟩
  | illegal cmd rest he hu =>
    exact Or.inr (Or.inl ⟨cmd, rest, .illegalCmd, he, hu, Cause.noConfusion, Cause.noConfusion, rfl⟩)
  | executed cmd rest i _ he hd heff =>
    rcases effect_fault heff with hkept | ⟨c, hu, hc, rfl⟩
    · exact Or.inl hkept
    · obtain ⟨_, hcmd⟩ := decodedCommandEncodesBack cmd i hd
      exact Or.inr (Or.inl ⟨cmd, rest, c, he, hu, cause_ne_none_of_causeFits hc, cause_ne_zeroDivisor_of_causeFits hc,
        by rw [hcmd]⟩)
  | reset rest he => exact Or.inr (Or.inr ⟨rest, he, rfl⟩)

/-- Settles O16: a step that enters FAULTED is a fault entry for the CMD presented. -/
theorem faultsArePrecise : Obligations.FaultsArePrecise := by
  intro s t h hs ht
  rcases step_fault h with ⟨_, hunit⟩ | ⟨cmd, rest, c, he, _, hc, _, rfl⟩ | ⟨rest, _, rfl⟩
  · exact absurd (hunit.1 ht) hs
  · exact ⟨cmd, rest, he, rfl, rfl, hc, rfl, rfl, rfl⟩
  · exact absurd ht UnitState.noConfusion

/-- Settles O17: no fault is raised in FAULTED and none has cause NONE, so what is left is reset. -/
theorem onlyResetLeavesFaulted : Obligations.OnlyResetLeavesFaulted := by
  refine ⟨fun s t h hs ht => ?_, fun s t cmd rest he h ht => ?_⟩
  · rcases step_fault h with ⟨_, hunit⟩ | ⟨_, _, _, _, hne, _⟩ | ⟨rest, he, rfl⟩
    · exact absurd (hunit.2 hs) ht
    · exact absurd hs hne
    · exact ⟨⟨rest, he⟩, rfl, rfl, rfl, rfl, rfl, readByte_forget s.buf⟩
  · rcases step_fault h with ⟨hcause, _⟩ | ⟨_, _, _, _, _, hc, _, rfl⟩ | ⟨rest', hreset, _⟩
    · exact hcause.symm.trans ht
    · exact absurd ht hc
    · rcases hreset with hreset | ⟨cut, hreset⟩ <;> simp [he] at hreset

/-- Settles O25: a fault raised has another cause, and reset leaves cause NONE. -/
theorem zeroDivisorIsNeverRaised : Obligations.ZeroDivisorIsNeverRaised := by
  intro s t h ht
  rcases step_fault h with ⟨hcause, _⟩ | ⟨_, _, _, _, _, _, hc, rfl⟩ | ⟨_, _, rfl⟩
  · exact hcause.symm.trans ht
  · exact absurd ht hc
  · exact absurd ht Cause.noConfusion

/-- Settles O26: the response of each effect of a command, and the commands each cause is tied to. -/
theorem commandsAnswerOnlyTheirOutcomes : Obligations.CommandsAnswerOnlyTheirOutcomes := by
  intro i s t h hs
  cases exec_effect h with
  | ignored _ hf => exact absurd hf hs
  | noHandle n => exact ⟨_, rfl, Or.inr (Or.inl ⟨rfl, rfl, n, rfl⟩)⟩
  | raised _ c _ hc =>
    refine ⟨_, rfl, Or.inr (Or.inr ?_)⟩
    cases c with
    | none | illegalCmd | zeroDivisor => exact hc.elim
    | noArray => exact Or.inl ⟨rfl, rfl, hc⟩
    | indexRange => exact Or.inr (Or.inl ⟨rfl, rfl, hc⟩)
    | wideBound => exact Or.inr (Or.inr (Or.inl ⟨rfl, rfl, hc⟩))
    | rangeBound => exact Or.inr (Or.inr (Or.inr ⟨rfl, rfl, hc⟩))
  | answered | created | destroyed | wroteBit | wroteWindow | reversed | rotated =>
    exact ⟨_, rfl, Or.inl ⟨rfl, rfl⟩⟩

/-! ### A legal state always steps -/

/-- CREATE outside FAULTED makes the array or answers NOHANDLE. -/
theorem exec_create_completes {s : State} (hs : s.Inv) (hu : s.unit ≠ .faulted) (n : Nat) :
    ∃ t, exec (.create n) s = .next t := by
  by_cases hno : s.unit = .ready ∨ doesNotFit s.buf.size n = true
  · exact ⟨_, exec_create_noHandle hu hno⟩
  · obtain ⟨hnr, hfit⟩ := not_or.1 hno
    have hempty : s.unit = .empty := by
      cases h : s.unit with
      | empty => rfl
      | ready => exact absurd h hnr
      | faulted => exact absurd h hu
    obtain ⟨m, hexec, _⟩ := createMakesAZeroedArray s n hs hempty (not_lt.1 (mt doesNotFit_eq_true.2 hfit))
    exact ⟨_, hexec⟩

/-- In a legal state READY each array command passes its check and completes its accesses, all in the bytes `0 .. NB`
(R47), or raises its fault. -/
theorem exec_array_completes {s : State} (hs : s.ReadyInv) {i : Instr} (hi : needsArray i = true) :
    ∃ t, exec i s = .next t := by
  have hu := hs.1
  cases i with
  | create | destroy | status => cases hi
  | size => exact ⟨_, sizeReadsBitCount s hu⟩
  | get a =>
    obtain hr | hout := lt_or_ge a s.bitCount.toNat
    · obtain ⟨_, _, hexec⟩ := getReadsTheBit s a hs hr
      exact ⟨_, hexec⟩
    · exact ⟨_, (indexOutOfRangeFaults s a hu hout).1⟩
  | set a v =>
    obtain hr | hout := lt_or_ge a s.bitCount.toNat
    · obtain ⟨_, hexec, _⟩ := setWritesTheBitOnly s a v hs hr
      exact ⟨_, hexec⟩
    · exact ⟨_, (indexOutOfRangeFaults s a hu hout).2 v⟩
  | get64 a =>
    obtain hr | hout := le_or_gt (a / 8 + 8) s.nb
    · obtain ⟨_, _, _, hexec⟩ := get64ReadsTheWindow s a hs hr
      exact ⟨_, hexec⟩
    · exact ⟨_, (windowOutOfBoundFaults s a hu hout).1⟩
  | set64 a w =>
    obtain hr | hout := le_or_gt (a / 8 + 8) s.nb
    · obtain ⟨_, _, hexec, _⟩ := set64WritesTheWindowOnly s a w hs hr
      exact ⟨_, hexec⟩
    · exact ⟨_, (windowOutOfBoundFaults s a hu hout).2 w⟩
  | reverse a b =>
    obtain ⟨_, _, hexec, _⟩ := exec_reverse_twice hs a b
    exact ⟨_, hexec⟩
  | rotate a b r =>
    obtain rfl | hb := b.eq_zero_or_pos
    · exact ⟨_, (emptyRangeIsANoOp s a hu).2 r⟩
    · obtain hr | hout := le_or_gt (a + b) s.bitCount.toNat
      · obtain ⟨_, hexec, _⟩ := exec_rotate_spec r hs hb hr
        exact ⟨_, hexec⟩
      · exact ⟨_, (rangePastTheEndFaults s a b hu hb hout).2 r⟩

/-- In a legal state every command completes: no fault or refusal of the model is reached (R47, R160). -/
theorem exec_completes {s : State} (hs : s.Inv) (i : Instr) : ∃ t, exec i s = .next t := by
  by_cases hu : s.unit = .faulted
  · exact ⟨_, exec_of_faulted i hu⟩
  by_cases hi : needsArray i = true
  · cases hs' : s.unit with
    | faulted => exact absurd hs' hu
    | empty => exact ⟨_, arrayCommandsFaultWithoutAnArray s i hs' hi⟩
    | ready => exact exec_array_completes ⟨hs', hs⟩ hi
  · cases i with
    | create n => exact exec_create_completes hs hu n
    | destroy => exact ⟨_, exec_destroy_of_not_faulted hu⟩
    | status => exact ⟨_, (statusReportsTheCondition s).1 hu⟩
    | size | get | set | get64 | set64 | reverse | rotate => exact absurd rfl hi

/-- A command takes nothing more off what the host presents. -/
theorem effect_events {s t : State} {i : Instr} (h : Effect s i t) : t.events = s.events := by
  cases h <;> rfl

/-- In a legal state every CMD, legal or not, completes with exactly one response (R51, R160). -/
theorem runCommand_completes {s : State} (hs : s.Inv) (cmd : Command) :
    ∃ t, runCommand cmd s = .next t ∧ t.events = s.events ∧ ∃ r, t.responses = s.responses ++ [r] := by
  cases hd : decode cmd with
  | ok i =>
    obtain ⟨t, hexec⟩ := exec_completes hs i
    have heff := exec_effect hexec
    obtain ⟨r, hresp, _⟩ := effect_response heff
    exact ⟨t, (runCommand_of_decode hd).trans hexec, effect_events heff, r, hresp⟩
  | error e =>
    by_cases hu : s.unit = .faulted
    · exact ⟨_, runCommand_of_faulted cmd hu, rfl, _, rfl⟩
    · exact ⟨_, runCommand_eq_next.2 (Or.inr (Or.inl ⟨hu, e, hd, rfl⟩)), rfl, _, rfl⟩

/-- Settles O23: an idle step and a reset need nothing of the state, and in a legal state every command completes. -/
theorem legalStateAlwaysSteps : Obligations.LegalStateAlwaysSteps := by
  intro s hs
  cases he : s.events with
  | nil => exact ⟨s, idleUnitKeepsItsState s he, rfl⟩
  | cons e rest =>
    cases e with
    | command cmd =>
      obtain ⟨t, hrun, hevents, hresp⟩ := runCommand_completes (inv_withEvents hs rest) cmd
      exact ⟨t, (step_of_command he).trans hrun, hevents, hresp⟩
    | reset => exact ⟨_, step_eq_next.2 (Or.inr (Or.inr (Or.inl ⟨rest, he, rfl⟩))), rfl, rfl⟩
    | cutCommand cmd => exact ⟨_, step_eq_next.2 (Or.inr (Or.inr (Or.inr ⟨cmd, rest, he, rfl⟩))), rfl, rfl⟩

end Sys2Proof.Proofs
end

section
/-! PROOFS. The statements about reset, the byte shared by two footprints, and good runs (`70_reset_and_hazards.md`). -/

namespace Sys2Proof.Proofs

open Sys2Proof.Machine Sys2Proof.Laws

/-! ### Good runs -/

/-- One more response keeps a run good exactly when it is good itself (R188). -/
theorem goodRun_of_response {s t : State} {r : Response} (hs : s.goodRun = true) (hr : t.responses = s.responses ++ [r]) :
    t.goodRun = r.good := by
  rw [State.goodRun] at hs
  simp [State.goodRun, hr, hs]

theorem goodRun_of_no_response {s t : State} (hs : s.goodRun = true) (hr : t.responses = s.responses) :
    t.goodRun = true := by
  rwa [State.goodRun, hr]

/-- The response to a command is FAULT or FAULTED exactly when it leaves the unit FAULTED (R158, R159, R162). -/
theorem effect_response_good {s t : State} {i : Instr} (h : Effect s i t) :
    ∃ r, t.responses = s.responses ++ [r] ∧ (r.good = true ↔ t.unit ≠ .faulted) := by
  cases h with
  | ignored _ hu => exact ⟨_, rfl, by simp [Response.good, hu]⟩
  | raised => exact ⟨_, rfl, by simp [Response.good]⟩
  | created | destroyed => exact ⟨_, rfl, by simp [Response.good]⟩
  | answered _ _ hu | noHandle _ hu => exact ⟨_, rfl, by simp [Response.good, hu]⟩
  | wroteBit _ _ _ hu | wroteWindow _ _ _ hu | reversed _ _ _ hu | rotated _ _ _ _ _ hu =>
    exact ⟨_, rfl, by simp [Response.good, hu]⟩

/-- Settles O24: an idle step and a reset answer nothing and do not enter FAULTED; a command's one response is good exactly
when the command does not leave the unit FAULTED. -/
theorem goodRunIsNeverFaulted : Obligations.GoodRunIsNeverFaulted := by
  intro s t h hgood hu
  cases step_effect h with
  | idle => exact iff_of_true hgood hu
  | ignored _ _ _ hf => exact absurd hf hu
  | illegal =>
    rw [goodRun_of_response hgood rfl]
    simp [Response.good]
  | executed _ _ _ _ _ _ heff =>
    obtain ⟨r, hr, hiff⟩ := effect_response_good heff
    rw [goodRun_of_response hgood hr, hiff]
  | reset => exact iff_of_true (goodRun_of_no_response hgood rfl) UnitState.noConfusion

/-! ### Reset -/

/-- Both reset events, between commands and during one, leave what `resetUnit` does (R180, R181). -/
theorem step_of_reset {s : State} {rest : List HostEvent}
    (he : s.events = .reset :: rest ∨ ∃ cmd, s.events = .cutCommand cmd :: rest) :
    step s = .next (resetUnit { s with events := rest }) := by
  rcases he with he | ⟨cmd, he⟩ <;> rw [step, takeEvent, he]

/-- Settles O12: the fields `resetUnit` leaves, and BUF as `forget` leaves it. -/
theorem resetEventClearsTheUnit : Obligations.ResetEventClearsTheUnit :=
  fun s _ he => ⟨_, step_of_reset he, rfl, rfl, rfl, rfl, rfl, readByte_forget s.buf, rfl, rfl, rfl⟩

/-! ### The byte shared by two footprints -/

/-- A range of 128 bits is one bulk round and no swap: both reads, then the right window's write, then the left one's on
the memory the first write left (R108, R184). -/
theorem reverse_of_one_round {m m₁ m₂ : Memory} {start : Nat} {l r : Word} (hl : m.get64 start = .ok l)
    (hr : m.get64 (start + 64) = .ok r) (hright : m.set64 (start + 64) (brev64 l) = .ok m₁)
    (hleft : m₁.set64 start (brev64 r) = .ok m₂) : m.reverse start 128 = .ok m₂ := by
  simp [Memory.reverse, Memory.bulkReverse, Memory.tailReverse, Config.wordBits, Config.bulkMin, hl, hr, hright, hleft]

/-- BUF in the worked case of R184: 64 bytes, of which the first 18 hold `bytes`. -/
def workedBuf (bytes : List Byte) : Memory := ⟨64, (List.range 18).zip bytes⟩

/-- `BUF[j] = 0x10 + j` on 136 bits, and the guard byte. -/
def workedBefore : Memory := workedBuf
  [0x10, 0x11, 0x12, 0x13, 0x14, 0x15, 0x16, 0x17, 0x18, 0x19, 0x1A, 0x1B, 0x1C, 0x1D, 0x1E, 0x1F, 0x20, 0x00]

/-- After the right window's write: byte 8, which the left window's footprint shares, is 00. -/
def workedBetween : Memory := workedBuf
  [0x10, 0x11, 0x12, 0x13, 0x14, 0x15, 0x16, 0x17, 0x00, 0x3A, 0x1A, 0x2A, 0x0A, 0x32, 0x12, 0x22, 0x22, 0x00]

/-- After the left window's write: byte 8 is 06, where a merge with the byte as it was at first would give 1E. -/
def workedAfter : Memory := workedBuf
  [0x00, 0x3E, 0x1E, 0x2E, 0x0E, 0x36, 0x16, 0x26, 0x06, 0x3A, 0x1A, 0x2A, 0x0A, 0x32, 0x12, 0x22, 0x22, 0x00]

theorem workedBefore_left : workedBefore.get64 3 = .ok 0x02E2C2A282624222 := by decide

theorem workedBefore_right : workedBefore.get64 67 = .ok 0x03E3C3A383634323 := by decide

theorem brev64_worked_left : brev64 0x02E2C2A282624222 = 0x4442464145434740 := by decide +kernel

theorem brev64_worked_right : brev64 0x03E3C3A383634323 = 0xC4C2C6C1C5C3C7C0 := by decide +kernel

theorem workedBefore_write_right : workedBefore.set64 67 0x4442464145434740 = .ok workedBetween := by decide

theorem workedBetween_write_left : workedBetween.set64 3 0xC4C2C6C1C5C3C7C0 = .ok workedAfter := by decide

/-- Settles O49: the one round of the worked case, each access with the value R184 gives. -/
theorem sharedByteIsMergedInOrder : Obligations.SharedByteIsMergedInOrder :=
  reverse_of_one_round workedBefore_left workedBefore_right
    (by rw [brev64_worked_left]; exact workedBefore_write_right)
    (by rw [brev64_worked_right]; exact workedBetween_write_left)

end Sys2Proof.Proofs
end
